-- ==== Sys2Proof/Word.lean ====
section
/-! DEFINITION. The unsigned widths of the spec (spec/00_scope.md R5): u8, u16, u32.
An address has `ADDR_W` bits, a parameter (R4), so it is a natural number that `fitsAddr` holds below `2 ^ ADDR_W`. -/

namespace Sys2Proof

/-- `u8`: a byte of memory, of a packet or of a request field (R5). -/
abbrev Byte := BitVec 8

/-- `u16`: a checksum, an entry of the checksum table (R5, R13). -/
abbrev Half := BitVec 16

/-- `u32`: `CMD`, `LEN`, `CAP` and the `length` of a response (R5, R17, R18). -/
abbrev Word := BitVec 32

end Sys2Proof
end

