-- ==== Sys2Proof/Machine/Checksum.lean ====
section
/-! DEFINITION. PayloadChecksum (spec/42_payload_checksum.md R80 to R83), and the bitwise step the table of
spec/10_state.md R14 is generated by. -/

namespace Sys2Proof.Machine

/-- The seed of the payload checksum (R80): 0xFFFF, as the golden trailer has it (90_conflicts.md C1). -/
def crcSeed : Half := 0xFFFF

/-- The update for one payload byte: `crc <- (crc >> 8) ^ ROM[(crc ^ zext_16(b)) & 0xFF]` (R80, R81). -/
def crcByte (crc : Half) (b : Byte) : Half :=
  (crc >>> 8) ^^^ rom ((crc ^^^ b.setWidth 16) &&& 0xFF).toNat

/-- The loop of R80 over a payload, from a given value; no final XOR and no bit reversal (R82). -/
def crcFrom (crc : Half) (p : List Byte) : Half := p.foldl crcByte crc

/-- `PayloadChecksum(p)` (R80): the loop from the seed. The empty payload gives the seed (R83,
C3). -/
def payloadChecksum (p : List Byte) : Half := crcFrom crcSeed p

/-- One of the eight steps of R14. -/
def crcBit (c : Half) : Half := if c.getLsbD 0 then (c >>> 1) ^^^ 0x8408 else c >>> 1

/-- The eight steps of R14. -/
def crcBits8 (c : Half) : Half := crcBit (crcBit (crcBit (crcBit (crcBit (crcBit (crcBit (crcBit c)))))))

/-- Entry `i` of ROM as R14 generates it (log 11). -/
def romGenerated (i : Nat) : Half := crcBits8 (BitVec.ofNat 16 i)

/-- The bitwise form of the checksum, from a given value (R84). -/
def crcBitwiseFrom (crc : Half) (p : List Byte) : Half := p.foldl (fun c b => crcBits8 (c ^^^ b.setWidth 16)) crc

end Sys2Proof.Machine
end

