-- ==== Sys2Proof/Machine/HeaderEcc.lean ====
section
/-! DEFINITION. HeaderECC (spec/41_header_ecc.md R70 to R73). The parity equations are the spec's, which marks them as
supplied from general knowledge (log 10). -/

namespace Sys2Proof.Machine

/-- The 24 header bits `D = {b2, b1, b0}`: `D[0]` is bit 0 of packet byte 0 (R26, R71). -/
def headerBits (b0 b1 b2 : Byte) : BitVec 24 := b2 ++ b1 ++ b0

/-- The XOR of the listed bits of `D`. -/
def xorOf (d : BitVec 24) (bits : List Nat) : Bool := bits.foldr (fun i acc => d.getLsbD i ^^ acc) false

/-- The bits of `D` in the equation of `P0` (R72), and so on to `P5`. -/
def p0Bits : List Nat := [0, 1, 2, 4, 5, 7, 10, 11, 13, 16, 20, 21, 22, 23]

/-- The equation of `P1` (R72). -/
def p1Bits : List Nat := [0, 1, 3, 4, 6, 8, 10, 12, 14, 17, 20, 21, 22, 23]

/-- The equation of `P2` (R72). -/
def p2Bits : List Nat := [0, 2, 3, 5, 6, 9, 11, 12, 15, 18, 20, 21, 22]

/-- The equation of `P3` (R72). -/
def p3Bits : List Nat := [1, 2, 3, 7, 8, 9, 13, 14, 15, 19, 20, 21, 23]

/-- The equation of `P4` (R72). -/
def p4Bits : List Nat := [4, 5, 6, 7, 8, 9, 16, 17, 18, 19, 20, 22, 23]

/-- The equation of `P5` (R72). -/
def p5Bits : List Nat := [10, 11, 12, 13, 14, 15, 16, 17, 18, 19, 21, 22, 23]

/-- The ECC byte `{0, 0, P5, P4, P3, P2, P1, P0}` of the 24 header bits (R52, R73). -/
def eccOf (d : BitVec 24) : Byte :=
  0#2 ++ BitVec.ofBool (xorOf d p5Bits) ++ BitVec.ofBool (xorOf d p4Bits) ++ BitVec.ofBool (xorOf d p3Bits)
    ++ BitVec.ofBool (xorOf d p2Bits) ++ BitVec.ofBool (xorOf d p1Bits) ++ BitVec.ofBool (xorOf d p0Bits)

/-- `HeaderECC(b0, b1, b2)` (R70). -/
def headerEcc (b0 b1 b2 : Byte) : Byte := eccOf (headerBits b0 b1 b2)

/-- The XOR of all bits of a header value (R72). -/
def parity (d : BitVec 24) : Bool := xorOf d (List.range 24)

/-- The masks of R72, `P0` first: the parity equations once more. -/
def eccMasks : List (BitVec 24) := [0xF12CB7, 0xF2555B, 0x749A6D, 0xB8E38E, 0xDF03F0, 0xEFFC00]

/-- The columns of R74: entry `i` is the ECC of the header with only bit `Di` set. -/
def eccColumns : List Byte :=
  [0x07, 0x0B, 0x0D, 0x0E, 0x13, 0x15, 0x16, 0x19, 0x1A, 0x1C, 0x23, 0x25, 0x26, 0x29, 0x2A, 0x2C]
    ++ [0x31, 0x32, 0x34, 0x38, 0x1F, 0x2F, 0x37, 0x3B]

/-- The column form of the ECC (R74): the XOR of the columns of the bits that are set. -/
def eccByColumns (d : BitVec 24) : Byte :=
  (List.range 24).foldr (fun i acc => (if d.getLsbD i then eccColumns.getD i 0 else 0) ^^^ acc) 0

end Sys2Proof.Machine
end

