-- ==== Sys2Proof/Config.lean ====
section
/-! DEFINITION. What is fixed for the machine: the source's parameters (spec/00_scope.md R4), the values the
model names for a power-on state, and the free values. -/

namespace Sys2Proof.Config

/-- `VC_MAX`, the largest valid virtual channel (R4, R101). -/
abbrev vcMax : Nat := 3

/-- The longest payload of a long packet, `LEN_MAX_LONG` (R4, R103). -/
abbrev lenMaxLong : Nat := 65535

/-- The length of every short packet (R4, R63). -/
abbrev shortSize : Nat := 4

/-- `ADDR_W` of the power-on state. DESIGN CHOICE (log 1, unsafe for claims about `State.reset` alone): the spec
leaves it OPEN (D3), and `State.addrW` takes every value. -/
def resetAddrW : Nat := 32

/-- What a byte of memory that nothing has written reads as. DESIGN CHOICE (log 3, unsafe): the spec gives no
power-on contents. -/
def blankByte : Byte := 0

/-- A byte the spec leaves open: of the destination region of a request that a reset abandoned (R121, log 7), one raced on
(R29, log 22), or one of a request without a defined result (R131, log 21). A FREE VALUE: the first argument is the model's
counter `State.freeCount`, the second the address. Safe. -/
opaque openByte : Nat → Nat → Byte

/-- Whether a stuck request has written a byte of its packet (R28, log 6), where some order of its accesses would have. A FREE
VALUE: the first argument is the model's counter `State.freeCount`, the second the number of the packet byte. Safe. -/
opaque wroteByte : Nat → Nat → Bool

/-- The number of the status (R100) of a request without a defined result (R131): a FREE VALUE, applied to the model's
counter. Log 21. -/
opaque openStatus : Nat → Fin 5

end Sys2Proof.Config
end

