-- ==== Sys2Proof/Syntax.lean ====
section
/-! DEFINITION. The request as presented (spec/30_encoding.md R40, R41) and the two operations it can ask for
(R42, spec/opcode_table.json). -/

namespace Sys2Proof

/-- A request as its requester presents it: the command word and four operands (R40, R17). -/
structure Request where
  /-- `CMD` (R41). -/
  cmd : Word
  /-- `LEN` (R43). -/
  len : Word
  /-- `CAP` (R44). -/
  cap : Word
  /-- `SRC`, `ADDR_W` bits (R45). -/
  src : Nat
  /-- `DST`, `ADDR_W` bits (R46). -/
  dst : Nat
deriving DecidableEq, Repr

/-- The operations of the block, one per row of the opcode table (R2, R42), operands in the order of R53. -/
inductive Instr where
  /-- `ENCODE_SHORT dst, cap, vc, ct, src, len` (R61). -/
  | encodeShort (dst : Nat) (cap : Word) (vc ct : Byte) (src : Nat) (len : Word)
  /-- `ENCODE_LONG dst, cap, vc, ct, src, len` (R62). -/
  | encodeLong (dst : Nat) (cap : Word) (vc ct : Byte) (src : Nat) (len : Word)
deriving DecidableEq, Repr

namespace Instr

/-- `op` (R41, R42): false for `ENCODE_SHORT`, true for `ENCODE_LONG`. -/
def op : Instr → Bool
  | encodeShort _ _ _ _ _ _ => false
  | encodeLong _ _ _ _ _ _ => true

/-- `req.dst` (R46). -/
def dst : Instr → Nat
  | encodeShort d _ _ _ _ _ => d
  | encodeLong d _ _ _ _ _ => d

/-- `req.cap` (R44). -/
def cap : Instr → Word
  | encodeShort _ c _ _ _ _ => c
  | encodeLong _ c _ _ _ _ => c

/-- `req.vc` (R41). -/
def vc : Instr → Byte
  | encodeShort _ _ v _ _ _ => v
  | encodeLong _ _ v _ _ _ => v

/-- `req.ct` (R41, R48). -/
def ct : Instr → Byte
  | encodeShort _ _ _ t _ _ => t
  | encodeLong _ _ _ t _ _ => t

/-- `req.src` (R45). -/
def src : Instr → Nat
  | encodeShort _ _ _ _ a _ => a
  | encodeLong _ _ _ _ a _ => a

/-- `req.len` (R43). -/
def len : Instr → Word
  | encodeShort _ _ _ _ _ n => n
  | encodeLong _ _ _ _ _ n => n

end Instr

/-- Pseudo-form `ShortWrite` of R54: caller policy, never received by the block. -/
def shortWrite (dst : Nat) (cap : Word) (vc : Byte) (src : Nat) : Instr :=
  .encodeShort dst cap vc 0x05 src 1

/-- Pseudo-form `ShortWriteParam` of R54. -/
def shortWriteParam (dst : Nat) (cap : Word) (vc : Byte) (src : Nat) : Instr :=
  .encodeShort dst cap vc 0x15 src 2

/-- Pseudo-form `LongWrite` of R54. -/
def longWrite (dst : Nat) (cap : Word) (vc : Byte) (src : Nat) (n : Word) : Instr :=
  .encodeLong dst cap vc 0x39 src n

end Sys2Proof
end

