-- ==== Sys2Proof/WellFormed.lean ====
section
/-! DEFINITION. What can be presented at all: an address operand has `ADDR_W` bits (spec/30_encoding.md R40). Every
other field has a fixed width, and every value of it is legal (R42, R43, R44, R48). -/

namespace Sys2Proof

/-- Whether an address has `ADDR_W` bits (R17, R21). -/
def fitsAddr (addrW : Nat) (a : Nat) : Bool := decide (a < 2 ^ addrW)

/-- A request whose address operands have `ADDR_W` bits (R40). -/
def Request.wf (addrW : Nat) (q : Request) : Bool := fitsAddr addrW q.src && fitsAddr addrW q.dst

/-- An instruction whose address operands have `ADDR_W` bits (R40). -/
def Instr.wf (addrW : Nat) (i : Instr) : Bool := fitsAddr addrW i.src && fitsAddr addrW i.dst

end Sys2Proof
end

