-- ==== Sys2Proof/Decode.lean ====
section
/-! DEFINITION. From a request as presented to the operation it asks for, and back (spec/30_encoding.md R40 to R47,
R53). The decoder is total: no value of `CMD` is illegal (R42); only an address operand of more than `ADDR_W` bits,
which no requester can present (R40), is rejected, by name. -/

namespace Sys2Proof

/-- Why a request cannot be presented on ports of `ADDR_W` address bits (R40; log 14, safe). -/
inductive DecodeError where
  /-- `SRC` does not have `ADDR_W` bits. -/
  | srcTooWide
  /-- `DST` does not have `ADDR_W` bits. -/
  | dstTooWide
deriving DecidableEq, Repr

/-- `req.op = CMD[0]` (R41). -/
def Request.op (q : Request) : Bool := q.cmd.getLsbD 0

/-- `req.vc = CMD[15:8]` (R41). -/
def Request.vc (q : Request) : Byte := q.cmd.extractLsb' 8 8

/-- `req.ct = CMD[23:16]` (R41). -/
def Request.ct (q : Request) : Byte := q.cmd.extractLsb' 16 8

/-- The operation of a request: `op` alone selects it (R42), the reserved bits are not looked at (R47). -/
def Request.instr (q : Request) : Instr :=
  if q.op then .encodeLong q.dst q.cap q.vc q.ct q.src q.len
  else .encodeShort q.dst q.cap q.vc q.ct q.src q.len

/-- The decoder of a block with `ADDR_W = addrW`. -/
def decode (addrW : Nat) (q : Request) : Except DecodeError Instr :=
  if !fitsAddr addrW q.src then .error .srcTooWide
  else if !fitsAddr addrW q.dst then .error .dstTooWide
  else .ok q.instr

/-- `CMD = (ct << 16) | (vc << 8) | op` (R53); the reserved bits are written as zero (R47). -/
def encodeCmd (op : Bool) (vc ct : Byte) : Word :=
  (ct.setWidth 32 <<< 16) ||| (vc.setWidth 32 <<< 8) ||| (BitVec.ofBool op).setWidth 32

/-- The encoder (R53): `LEN = len`, `CAP = cap`, `SRC = src`, `DST = dst`. -/
def encode (i : Instr) : Request :=
  { cmd := encodeCmd i.op i.vc i.ct, len := i.len, cap := i.cap, src := i.src, dst := i.dst }

/-- A whole request laid out as ONE number, for the host's interface only: `CMD` in bits 31:0, then `LEN`, `CAP`, `SRC`
and `DST` above it. DESIGN CHOICE (log 5, safe): the spec presents the five values side by side and numbers no bit
outside `CMD`. -/
def Request.ofBits (addrW w : Nat) : Request :=
  { cmd := BitVec.ofNat 32 w
    len := BitVec.ofNat 32 (w >>> 32)
    cap := BitVec.ofNat 32 (w >>> 64)
    src := (w >>> 96) % 2 ^ addrW
    dst := (w >>> (96 + addrW)) % 2 ^ addrW }

/-- What the decoder reads from an opcode-table word of `nbits` bits, every operand bit above them zero. -/
def decodeTableWord (nbits w : Nat) : Option Instr :=
  match decode Config.resetAddrW (Request.ofBits Config.resetAddrW (w % 2 ^ nbits)) with
  | .ok i => some i
  | .error _ => none

end Sys2Proof
end

