-- ==== Sys2Proof/Machine/State.lean ====
section
/-! DEFINITION. The state of the block, of the memory it shares and of its ports (spec/10_state.md), as plain data.
The block has no registers, no program counter, no flags and no modes (R10 to R12); its checksum table is the constant
of Machine/Rom.lean (R16). -/

namespace Sys2Proof.Machine

/-- The shared memory (R19, R21): the cells whose byte is not the blank one, addresses strictly rising. -/
abbrev Memory := List Host.Cell

/-- The canonical form: addresses strictly rising, no cell equal to what an unlisted address reads as. -/
abbrev Memory.wf (m : Memory) : Prop :=
  m.Pairwise (fun c d => c.1 < d.1) ∧ ∀ c ∈ m, c.2 ≠ Config.blankByte

/-- The status of a response (R100). -/
inductive Status where
  /-- The packet was written. -/
  | ok
  /-- "channel outside 0–3" (R101). -/
  | invalidChannel
  /-- "short-packet payload length not 1 or 2" (R102). -/
  | invalidLength
  /-- "long-packet payload exceeds 65535 bytes" (R103). -/
  | payloadTooLarge
  /-- "destination buffer capacity insufficient for the computed packet size" (R104). -/
  | bufferTooSmall
deriving DecidableEq, Repr

/-- A response: `status` and `length` (R18). -/
structure Response where
  status : Status
  length : Word
deriving DecidableEq, Repr

/-- A response as one requester received it (R18); the requester's number is the ports', the block has none (R114). -/
structure Delivery where
  requester : Nat
  response : Response
deriving DecidableEq, Repr

/-- The two kinds of one-byte access (R22, R23). -/
inductive AccessKind where
  | read
  | write
deriving DecidableEq, Repr

/-- A range of addresses at which the platform does not admit one kind of access of the block ("unmapped or protected
memory", R22, R23). -/
structure Denial where
  base : Nat
  size : Nat
  kind : AccessKind
deriving DecidableEq, Repr

/-- One access to the shared memory by an agent other than the block, the requester among them (R21, R29, R125). -/
inductive BusAccess where
  | read (addr : Nat)
  | write (addr : Nat) (v : Byte)
deriving DecidableEq, Repr

/-- What the outside world does to the block (R131), one entry per arrival. -/
inductive Input where
  /-- A requester issues a request (R3, R40); `during` lists what other agents do to memory while it is in flight (R29). -/
  | request (requester : Nat) (q : Request) (during : List BusAccess)
  /-- A request during whose execution reset is asserted (R121). -/
  | requestCutByReset (q : Request) (during : List BusAccess)
  /-- Reset between requests (R120). -/
  | reset
  /-- Another agent's access between requests (R21). -/
  | bus (a : BusAccess)
deriving DecidableEq, Repr

/-- Everything the spec gives the machine, beside the constant checksum table. -/
structure State where
  /-- `ADDR_W` (R4, R21), a parameter: no step changes it. -/
  addrW : Nat
  /-- What the platform does not admit (R22, R23), a parameter: no step changes it. -/
  denied : List Denial
  /-- The shared memory (R19, R21). -/
  mem : Memory
  /-- The request being performed, with the command word and operands it carries (R17, R20). Between steps there is none
  (R7). -/
  inFlight : Option Request
  /-- The operations of the requests that are stuck in flight, oldest first (R20, R22, R23): no next step and no response for
  them. -/
  stuck : List Instr
  /-- The response waiting for delivery (R18, R120). -/
  response : Option Response
  /-- What is still to arrive at the ports, in arrival order, which the spec leaves free (R32). -/
  inputs : List Input
  /-- The responses the requesters have received, oldest first (R18). -/
  delivered : List Delivery
  /-- The model's own: counts the free values used so far (logs 6, 7, 21, 22). -/
  freeCount : Nat
deriving DecidableEq, Repr

/-- What stops the machine. -/
inductive Fault where
  /-- A read the platform does not admit (R22, D14): the request has no next step and no response. Raised by both
  operations; `left` is the state it leaves by the order of the pseudocode (log 6), still in flight. Safe: it ends the
  request, not the block, and `step` goes on with the request stuck (log 24). -/
  | stuckRead (addr : Nat) (left : State)
  /-- A write the platform does not admit (R23, D14), the bytes already written staying in `left`. Raised by both
  operations. Safe as to the stop, as above; which bytes `left` already holds follows the order of the pseudocode (log 6). -/
  | stuckWrite (addr : Nat) (left : State)
  /-- An access of another agent at an address outside the `2 ^ ADDR_W` bytes of memory (R21), which does not exist.
  Raised by `step`. Safe (log 13). -/
  | outsideMemory (addr : Nat)
deriving DecidableEq, Repr

/-- Requests to which the spec gives no result. -/
inductive Refusal where
  /-- An operation without a meaning yet. Raised by `exec`. Safe. -/
  | notModelled (mnemonic : String)
  /-- Source and destination region share a byte: "a model refuses it" (R30, D11). Raised by both operations. Safe. -/
  | regionsOverlap
  /-- A region passes the top of the address space: "a model refuses it" (R30, D12). Raised by both operations. Safe. -/
  | regionPassesTop
  /-- A request that no port of `ADDR_W` address bits can present (R40). Raised by `step`. Safe (log 14). -/
  | unpresentable (e : DecodeError)
deriving DecidableEq, Repr

/-- A block right after reset on a platform with `ADDR_W = addrW` that does not admit `denied` and whose memory holds
`mem`: no request in flight, no response waiting (R120). -/
def State.resetOn (addrW : Nat) (denied : List Denial) (mem : Memory) : State :=
  { addrW, denied, mem, inFlight := none, stuck := [], response := none, inputs := [], delivered := [], freeCount := 0 }

/-- The machine right after reset (R120): memory with nothing listed, `ADDR_W` and the platform as logs 1 and 2 name
them. -/
def State.reset : State := State.resetOn Config.resetAddrW [] []

end Sys2Proof.Machine
end

