-- ==== Sys2Proof/Machine/Flags.lean ====
section
/-! DEFINITION. The block has no flags (spec/10_state.md R12); the only per-request status is the `status` field of the
response. This file holds its codes (spec/60_exceptions.md R100) and the argument checks that compute it (R101 to R104),
in the priority of R106. -/

namespace Sys2Proof.Machine

/-- The code of a status (R100). Codes 5 to 255 are never produced. -/
def Status.code : Status → Byte
  | .ok => 0
  | .invalidChannel => 1
  | .invalidLength => 2
  | .payloadTooLarge => 3
  | .bufferTooSmall => 4

/-- The bytes of a long packet, `4 + n + 2`, as a natural number, so nothing overflows (R63). -/
abbrev longSize (len : Word) : Nat := 4 + len.toNat + 2

/-- The first argument error of `ENCODE_SHORT`, if any (R61, R106). -/
def shortError (vc : Byte) (len cap : Word) : Option Status :=
  if vc.toNat > Config.vcMax then some .invalidChannel
  else if len.toNat ≠ 1 ∧ len.toNat ≠ 2 then some .invalidLength
  else if cap.toNat < Config.shortSize then some .bufferTooSmall
  else none

/-- The first argument error of `ENCODE_LONG`, if any (R62, R106). -/
def longError (vc : Byte) (len cap : Word) : Option Status :=
  if vc.toNat > Config.vcMax then some .invalidChannel
  else if len.toNat > Config.lenMaxLong then some .payloadTooLarge
  else if cap.toNat < longSize len then some .bufferTooSmall
  else none

/-- The first argument error of a request, if any (R106). -/
def argError : Instr → Option Status
  | .encodeShort _ cap vc _ _ len => shortError vc len cap
  | .encodeLong _ cap vc _ _ len => longError vc len cap

end Sys2Proof.Machine
end

