-- ==== Sys2Proof/Machine/Operands.lean ====
section
/-! DEFINITION. The operands of a request as regions of memory: the source region it reads and the destination region it
writes (spec/20_memory.md R30, R38; spec/00_scope.md R8), and what the spec asks of them. -/

namespace Sys2Proof.Machine

/-- The bytes a request that passes every argument check reads, `[src, src + n)`, and writes, `[dst, dst + size)`
(R38). -/
structure Footprint where
  src : Nat
  n : Nat
  dst : Nat
  size : Nat
deriving DecidableEq, Repr

namespace Footprint

/-- Whether an address lies in the source region. -/
def inSrc (f : Footprint) (a : Nat) : Bool := decide (f.src ≤ a ∧ a < f.src + f.n)

/-- Whether an address lies in the destination region. -/
def inDst (f : Footprint) (a : Nat) : Bool := decide (f.dst ≤ a ∧ a < f.dst + f.size)

/-- Whether the two regions share a byte (R30). DESIGN CHOICE (log 27, unsafe): the destination region is R30's, `[DST, DST + size)`;
a request whose payload lies in `[DST + size, DST + CAP)`, which R38 and R123 read otherwise, is performed all the same. -/
def overlaps (f : Footprint) : Bool :=
  decide (0 < f.n ∧ 0 < f.size ∧ f.src < f.dst + f.size ∧ f.dst < f.src + f.n)

/-- Whether one of the regions passes the top of the address space (R30). DESIGN CHOICE (log 23, unsafe): the test is R30's, of
`DST + size`; a request whose `CAP` bytes alone pass the top, which nobody can own (R123), is performed all the same. -/
def passesTop (addrW : Nat) (f : Footprint) : Bool :=
  decide (2 ^ addrW < f.dst + f.size ∨ 2 ^ addrW < f.src + f.n)

/-- Why the spec gives a request with these regions no result, if so (R30). Log 9: two refusals, no order between them
in the spec. -/
def refusal (addrW : Nat) (f : Footprint) : Option Refusal :=
  if f.overlaps then some .regionsOverlap
  else if f.passesTop addrW then some .regionPassesTop
  else none

end Footprint

/-- The regions of `ENCODE_SHORT`: with `LEN == 1`, `SRC + 1` is not read (R38, R61). -/
def shortFootprint (dst src : Nat) (len : Word) : Footprint :=
  { src, n := len.toNat, dst, size := Config.shortSize }

/-- The regions of `ENCODE_LONG` (R38, R62). -/
def longFootprint (dst src : Nat) (len : Word) : Footprint :=
  { src, n := len.toNat, dst, size := longSize len }

/-- The regions of a request; a request that fails an argument check has none, since it touches no memory (R38, R105). -/
def footprint (i : Instr) : Option Footprint :=
  match argError i with
  | some _ => none
  | none =>
    match i with
    | .encodeShort dst _ _ _ src len => some (shortFootprint dst src len)
    | .encodeLong dst _ _ _ src len => some (longFootprint dst src len)

/-- The address an access of another agent touches. -/
def BusAccess.addr : BusAccess → Nat
  | .read a => a
  | .write a _ => a

/-- Whether an access of another agent during a request with these regions is one R29 forbids: a write of the source
region, a read or a write of the destination region. -/
def BusAccess.conflicts (f : Footprint) : BusAccess → Bool
  | .read a => f.inDst a
  | .write a _ => f.inSrc a || f.inDst a

/-- Whether an access of another agent touches the bytes `[DST + size, DST + CAP)` behind the packet, which duty (2) of R123
keeps other agents from as well. The access names no agent, so one of the requester itself counts too, although R123 says
"no other agent" (DESIGN CHOICE, log 21, safe). -/
def BusAccess.intrudes (f : Footprint) (cap : Word) (b : BusAccess) : Bool :=
  decide (f.dst + f.size ≤ b.addr ∧ b.addr < f.dst + cap.toNat)

/-- Whether a request is raced on (R29). A request that fails an argument check has no regions and cannot be (log 8). -/
def raced (i : Instr) (during : List BusAccess) : Bool :=
  match footprint i with
  | some f => during.any (BusAccess.conflicts f)
  | none => false

/-- Whether duty (2) of R123 is broken beyond a race: another agent touches the buffer behind the packet (R131). Not asked
of a request that fails an argument check (log 8). -/
def intruded (i : Instr) (during : List BusAccess) : Bool :=
  match footprint i with
  | some f => during.any (BusAccess.intrudes f i.cap)
  | none => false

/-- Whether other agents keep the duties of R123 and R125 towards a request. -/
def undisturbed (i : Instr) (during : List BusAccess) : Bool := !(raced i during || intruded i during)

/-- Whether one access breaks such a duty. -/
def disturbs (i : Instr) (b : BusAccess) : Bool := raced i [b] || intruded i [b]

end Sys2Proof.Machine
end

