-- ==== Sys2Proof/Machine/Ops.lean ====
section
/-! DEFINITION. The operations every request is made of (spec/00_scope.md R6): `MemRead` and `MemWrite` on the shared
memory (spec/20_memory.md R21 to R23), the same over a region, `respond` and `raise` (spec/10_state.md R18,
spec/60_exceptions.md R100, R105), and the one transaction both operations perform. -/

namespace Sys2Proof.Machine

/-- The byte held at an address (R22). -/
def Memory.read : Memory → Nat → Byte
  | [], _ => Config.blankByte
  | c :: m, a => if c.1 = a then c.2 else Memory.read m a

/-- Memory with the byte at one address set (R23), canonical form kept. -/
def Memory.write : Memory → Nat → Byte → Memory
  | [], a, v => if v = Config.blankByte then [] else [(a, v)]
  | c :: m, a, v =>
    if a < c.1 then (if v = Config.blankByte then c :: m else (a, v) :: c :: m)
    else if c.1 = a then (if v = Config.blankByte then m else (a, v) :: m)
    else c :: Memory.write m a v

/-- Bytes written at consecutive addresses, the first at `a` (R24). -/
def Memory.writeAll : Memory → Nat → List Byte → Memory
  | m, _, [] => m
  | m, a, b :: bs => Memory.writeAll (m.write a b) (a + 1) bs

/-- Of the bytes of a packet at `a`, those numbered `ks` written (R23, R24), the others left as they are. -/
def Memory.writeSome (m : Memory) (a : Nat) (packet : List Byte) (ks : List Nat) : Memory :=
  ks.foldl (fun m k => m.write (a + k) (packet.getD k 0)) m

/-- The bytes held at `n` consecutive addresses, the first at `a`. -/
def Memory.readAll (m : Memory) (a : Nat) : Nat → List Byte
  | 0 => []
  | n + 1 => m.read a :: Memory.readAll m (a + 1) n

/-- Whether a denial covers an access (R22, R23). -/
def Denial.covers (d : Denial) (k : AccessKind) (a : Nat) : Bool :=
  decide (d.kind = k ∧ d.base ≤ a ∧ a < d.base + d.size)

/-- Whether the platform admits a one-byte access of the block: the address is one of the `2 ^ ADDR_W` (R21), and no
denial covers it (R22, R23). -/
def State.admits (s : State) (k : AccessKind) (a : Nat) : Bool :=
  decide (a < 2 ^ s.addrW) && !s.denied.any (fun d => d.covers k a)

/-- `MemRead` at `n` consecutive addresses (R22): the bytes, or the first address whose read the platform does not
admit. -/
def readRegion (s : State) (a : Nat) : Nat → Except Nat (List Byte)
  | 0 => .ok []
  | n + 1 =>
    if s.admits .read a then
      match readRegion s (a + 1) n with
      | .ok bs => .ok (s.mem.read a :: bs)
      | .error e => .error e
    else .error a

/-- `MemWrite(a, 1, v)` (R23): one byte of memory is set and nothing else changes. -/
def State.memWrite (s : State) (a : Nat) (v : Byte) : State := { s with mem := s.mem.write a v }

/-- `MemWrite` at consecutive addresses in rising order (R23, R24): the state after it, or the first address whose write
the platform does not admit with the state left there, "the bytes already written" staying written. -/
def writeRegion (s : State) (a : Nat) : List Byte → Except (Nat × State) State
  | [] => .ok s
  | b :: bs =>
    if s.admits .write a then writeRegion (s.memWrite a b) (a + 1) bs
    else .error (a, s)

/-- `respond(status, length)` (R6, R18): the response is presented and the request is over. -/
def State.respond (s : State) (status : Status) (length : Word) : State :=
  { s with response := some { status, length }, inFlight := none }

/-- `raise <Error>` (R6, R105, R108): the response `(code, 0)`. This is all of taking an error: no trap, nothing saved, no
mode switched, no control transferred; and there is nothing to return from (R109). -/
def State.raise (s : State) (e : Status) : State := s.respond e 0

/-- The transaction of a request that passed every argument check: refused where R30 gives no result; else the source
region is read, the packet made of its bytes is written to the destination region, and `(OK, size)` is the response (R61,
R62). A read or write the platform does not admit leaves the request stuck (R22, R23, R107). Reads come before writes, as
in the pseudocode (log 6). -/
def transact (f : Footprint) (packet : List Byte → List Byte) (s : State) : Host.Outcome State Fault Refusal :=
  match f.refusal s.addrW with
  | some r => .refused r
  | none =>
    match readRegion s f.src f.n with
    | .error a => .fault (.stuckRead a s)
    | .ok p =>
      match writeRegion s f.dst (packet p) with
      | .error (a, left) => .fault (.stuckWrite a left)
      | .ok s' => .next (s'.respond .ok (BitVec.ofNat 32 f.size))

end Sys2Proof.Machine
end

