-- ==== Sys2Proof/Machine/PacketEncoder.lean ====
section
/-! DEFINITION. PacketEncoder: the packets (spec/30_encoding.md R49 to R51, spec/40_packet_encoder.md R60) and the meaning
of the two operations (R61, R62). -/

namespace Sys2Proof.Machine

/-- `DataIdentifier(vc, ct) = ((vc << 6) | (ct & 0x3F)) & 0xFF` (R49, R60); 8-bit shifts drop what the mask would. -/
def dataIdentifier (vc ct : Byte) : Byte := (vc <<< 6) ||| (ct &&& 0x3F)

/-- A header of three bytes followed by its ECC byte (R50, R51). -/
def withEcc (b0 b1 b2 : Byte) : List Byte := [b0, b1, b2, headerEcc b0 b1 b2]

/-- The short packet of a payload of one or two bytes: byte 2 is 0x00 where there is no second one (R50). -/
def shortPacket (vc ct : Byte) (p : List Byte) : List Byte :=
  withEcc (dataIdentifier vc ct) (p.getD 0 0) (p.getD 1 0)

/-- The two bytes of a 16-bit field, low byte first (R25). -/
def littleEndian (v : Half) : List Byte := [v.extractLsb' 0 8, v.extractLsb' 8 8]

/-- The long packet of a payload whose length the request gives as `len` (R51): header, payload verbatim, checksum. -/
def longPacket (vc ct : Byte) (len : Word) (p : List Byte) : List Byte :=
  withEcc (dataIdentifier vc ct) (len.extractLsb' 0 8) (len.extractLsb' 8 8) ++ p ++ littleEndian (payloadChecksum p)

/-- The packet a request writes, as a function of the payload it reads (R67). -/
def packetOf : Instr → List Byte → List Byte
  | .encodeShort _ _ vc ct _ _ => shortPacket vc ct
  | .encodeLong _ _ vc ct _ len => longPacket vc ct len

/-- Whether byte `k` of a request's packet is made of source byte `j` (R50, R51), so that no order of the accesses writes the one
before it has read the other: a payload byte, and the ECC of a short packet or the checksum of a long one. -/
def dependsOn (i : Instr) (k j : Nat) : Bool :=
  match i with
  | .encodeShort _ _ _ _ _ _ => decide (k = 1 + j ∨ k = 3)
  | .encodeLong _ _ _ _ _ len => decide (k = 4 + j ∨ 4 + len.toNat ≤ k)

/-- `ENCODE_SHORT` (R61). -/
def execEncodeShort (dst : Nat) (cap : Word) (vc ct : Byte) (src : Nat) (len : Word) (s : State) :
    Host.Outcome State Fault Refusal :=
  match shortError vc len cap with
  | some e => .next (s.raise e)
  | none => transact (shortFootprint dst src len) (shortPacket vc ct) s

/-- `ENCODE_LONG` (R62). -/
def execEncodeLong (dst : Nat) (cap : Word) (vc ct : Byte) (src : Nat) (len : Word) (s : State) :
    Host.Outcome State Fault Refusal :=
  match longError vc len cap with
  | some e => .next (s.raise e)
  | none => transact (longFootprint dst src len) (longPacket vc ct len) s

end Sys2Proof.Machine
end

