-- ==== Sys2Proof/Machine/Dispatch.lean ====
section
/-! DEFINITION. One arm per operation of the opcode table (spec/30_encoding.md R42). -/

namespace Sys2Proof.Machine

def exec (i : Instr) (s : State) : Host.Outcome State Fault Refusal :=
  match i with
  | .encodeShort dst cap vc ct src len => Sys2Proof.Machine.execEncodeShort dst cap vc ct src len s
  | .encodeLong dst cap vc ct src len => Sys2Proof.Machine.execEncodeLong dst cap vc ct src len s

end Sys2Proof.Machine
end

