-- ==== Sys2Proof/Machine/Port.lean ====
section
/-! DEFINITION. The ports (spec/70_reset_and_hazards.md R131): taking a request and delivering its response
(spec/10_state.md R17, R18), accesses of other agents (spec/20_memory.md R21, R29), and reset (R120, R121). -/

namespace Sys2Proof.Machine

/-- What an access of another agent does to memory: a read has no effect (R22), a write sets its byte. -/
def busAccess (s : State) : BusAccess → State
  | .read _ => s
  | .write a v => s.memWrite a v

/-- Several accesses of other agents, in order. -/
def busAccesses (s : State) (as : List BusAccess) : State := as.foldl busAccess s

/-- The first access outside the address space (R21), if any. -/
def firstOutside (addrW : Nat) (as : List BusAccess) : Option BusAccess :=
  as.find? (fun a => !fitsAddr addrW a.addr)

/-- The operations in flight (R20): the stuck ones, and the one being performed. -/
def State.flying (s : State) : List Instr := s.stuck ++ s.inFlight.toList.map Request.instr

/-- What is in flight stays there without being performed: it is stuck (R22). -/
def State.park (s : State) : State := { s with inFlight := none, stuck := s.flying }

/-- The request is in flight and no response waits (R17, R20). -/
def State.accept (s : State) (q : Request) : State := { s.park with inFlight := some q, response := none }

/-- The response leaves the block for the requester that issued the request, which the block does not know (R18, R114). -/
def State.deliver (s : State) (requester : Nat) : State :=
  match s.response with
  | some r => { s with response := none, delivered := s.delivered ++ [{ requester, response := r }] }
  | none => s

/-- One free value for each byte of a region of `size` bytes from `dst`. -/
def freeBytes (count : Nat) (dst : Nat) (size : Nat) : List Byte :=
  (List.range size).map (fun k => Config.openByte count (dst + k))

/-- Every byte of a destination region holds a free value (R121, R131). -/
def State.openRegion (s : State) (f : Footprint) : State :=
  { s with mem := s.mem.writeAll f.dst (freeBytes s.freeCount f.dst f.size), freeCount := s.freeCount + 1 }

/-- One byte of memory holds a free value (R29). -/
def State.openByte (s : State) (a : Nat) : State :=
  { s with mem := s.mem.write a (Config.openByte s.freeCount a), freeCount := s.freeCount + 1 }

/-- "Every value for each byte raced on" (R29, log 22): each byte at which another agent broke a duty of R123 or R125
towards one of the operations in flight holds a free value. -/
def scramble (is : List Instr) (during : List BusAccess) (s : State) : State :=
  (during.filter (fun b => is.any (fun i => disturbs i b))).foldl (fun t b => t.openByte b.addr) s

/-- The status a number stands for (R100). -/
def statusOf (k : Fin 5) : Status :=
  match k with
  | 0 => .ok
  | 1 => .invalidChannel
  | 2 => .invalidLength
  | 3 => .payloadTooLarge
  | 4 => .bufferTooSmall

/-- A request without a defined result (R131, log 21): its packet and its status are free values; the length is the one R18
gives that status, and there is a response (R130). -/
def State.openResult (s : State) (f : Footprint) : State :=
  let status := statusOf (Config.openStatus s.freeCount)
  (s.openRegion f).respond status (if status = .ok then BitVec.ofNat 32 f.size else 0)

/-- What a request leaves when it is over, given what other agents did while the operations `is` were in flight, its own
among them: as the operation left it where they kept their duties; without a defined result where they touched the buffer
behind the packet (R123, R131); and each byte raced on open (R29). -/
def settle (i : Instr) (is : List Instr) (during : List BusAccess) (s : State) : State :=
  scramble is during
    (match footprint i with
    | some f => if intruded i during then s.openResult f else s
    | none => s)

/-- Every byte of a destination region that the platform lets the block write holds a free value. -/
def State.openWritable (s : State) (f : Footprint) : State :=
  (((List.range f.size).map (f.dst + ·)).filter (s.admits .write)).foldl State.openByte s

/-- Whether a stuck request can have written byte `k` of its packet, by some order of its accesses (R28): the platform admits
the write, and every read the byte is made of. -/
def State.mayHaveWritten (s : State) (i : Instr) (k : Nat) : Bool :=
  s.admits .write (i.dst + k) &&
    (List.range i.len.toNat).all (fun j => !dependsOn i k j || s.admits .read (i.src + j))

/-- The packet bytes numbered here are those a stuck request has written: which of those it can have written is a free value
(R28, log 6). -/
def State.writtenBytes (s : State) (i : Instr) (size : Nat) : List Nat :=
  (List.range size).filter (fun k => s.mayHaveWritten i k && Config.wroteByte s.freeCount k)

/-- "The bytes already written by the request stay written" (R23): each of them holds the packet's byte, and every other byte
what it held. -/
def State.writePart (s : State) (i : Instr) (f : Footprint) : State :=
  { s with
    mem := s.mem.writeSome f.dst (packetOf i (s.mem.readAll f.src f.n)) (s.writtenBytes i f.size)
    freeCount := s.freeCount + 1 }

/-- What a stuck request leaves (R22, R23): it stays in flight without a response, some of its packet written. Where other
agents touched the buffer behind the packet, it has no defined result (R131), and each byte it may write is open (log 21). -/
def getStuck (i : Instr) (during : List BusAccess) (s : State) : State :=
  match footprint i with
  | some f => (if intruded i during then s.openWritable f else s.writePart i f).park
  | none => s.park

/-- What a reset does to memory because of an operation it abandons (R121): every byte of its destination region gets a
free value. An operation that fails an argument check has no destination region. -/
def abandon (s : State) (i : Instr) : State :=
  match footprint i with
  | some f => s.openRegion f
  | none => s

/-- Reset of the block (R120, R121): no request in flight and no response waiting; memory as it was, but for the
destination regions of the operations in flight. What other agents do and have received is not the block's (log 15). -/
def resetBlock (s : State) : State :=
  { s.flying.foldl abandon s with inFlight := none, stuck := [], response := none }

/-- Presents a request (R3, R40): decodes it and hands the operation on with the request in flight. What other agents do
meanwhile comes first, the bytes at which they broke a duty open, so that a byte raced on is read as any value (logs 18,
22). -/
def present (q : Request) (during : List BusAccess) (s : State)
    (k : Instr → State → Host.Outcome State Fault Refusal) : Host.Outcome State Fault Refusal :=
  match decode s.addrW q with
  | .error e => .refused (.unpresentable e)
  | .ok i =>
    match firstOutside s.addrW during with
    | some a => .fault (.outsideMemory a.addr)
    | none =>
      let s' := (busAccesses s during).accept q
      k i (scramble s'.flying during s')

/-- A request performed as one atomic step, its response delivered (R7, R18). One that meets an access the platform does not
admit is stuck instead, and the block is ready for the next (R22, R32, R130, log 24). What other agents' broken duties leave
open is open afterwards (R29, R131). DESIGN CHOICE (log 25, unsafe): a request of a requester that still waits for a response,
because its earlier request is stuck or was abandoned, breaks R126, and is performed like any other (R130). DESIGN CHOICE
(log 26, unsafe): so is one whose regions meet those of a stuck request, which two requesters then own (R123). -/
def performRequest (requester : Nat) (q : Request) (during : List BusAccess) (s : State) :
    Host.Outcome State Fault Refusal :=
  present q during s fun i s' =>
    match exec i s' with
    | .next t => .next ((settle i s'.flying during t).deliver requester)
    | .fault (.stuckRead _ _) => .next (scramble s'.flying during (getStuck i during s'))
    | .fault (.stuckWrite _ _) => .next (scramble s'.flying during (getStuck i during s'))
    | .fault (.outsideMemory a) => .fault (.outsideMemory a)
    | .refused r => .refused r

/-- A request abandoned by a reset while it is in flight (R121): no response, and each byte raced on open (R29). Where R30
gives the request no result, the model refuses it here too. -/
def cutRequest (q : Request) (during : List BusAccess) (s : State) : Host.Outcome State Fault Refusal :=
  present q during s fun i s' =>
    match (footprint i).bind (Footprint.refusal s'.addrW) with
    | some r => .refused r
    | none => .next (scramble s'.flying during (resetBlock s'))

/-- An access of another agent between two arrivals (R21, log 13); a byte raced on with a stuck request is open (R29). -/
def busInput (a : BusAccess) (s : State) : Host.Outcome State Fault Refusal :=
  if fitsAddr s.addrW a.addr then .next (scramble s.flying [a] (busAccess s a)) else .fault (.outsideMemory a.addr)

/-- One arrival, whether or not requests are stuck. -/
def takeInput (input : Input) (s : State) : Host.Outcome State Fault Refusal :=
  match input with
  | .request requester q during => performRequest requester q during s
  | .requestCutByReset q during => cutRequest q during s
  | .reset => .next (resetBlock s)
  | .bus a => busInput a s

/-- What the next arrival does. With nothing arriving, the block stays as it is: an idle one is woken by nothing else
(R116), and a stuck request has no next step (R22). -/
def nextArrival (s : State) : Host.Outcome State Fault Refusal :=
  match s.inputs with
  | [] => .next s
  | input :: rest => takeInput input { s with inputs := rest }

/-- Puts a request at the head of the arrivals of a block with nothing in flight (log 5). -/
def State.presentNext (s : State) (q : Request) : State :=
  { s with inFlight := none, stuck := [], inputs := .request 0 q [] :: s.inputs }

end Sys2Proof.Machine
end

