-- ==== Sys2Proof/Machine/Step.lean ====
section
/-! DEFINITION. One step of the machine, and how the host places a request for it. The block fetches no instructions
(spec/10_state.md R11): a step takes the next arrival at the ports. -/

namespace Sys2Proof.Machine

/-- One step: the next arrival, whole (spec/00_scope.md R7). -/
def step (s : State) : Host.Outcome State Fault Refusal := nextArrival s

/-- The request whose opcode-table word is `w` (operands above `nbits` zero) as the next arrival (log 5). -/
def State.withFetchWord (s : State) (nbits w : Nat) : State :=
  s.presentNext (Request.ofBits s.addrW (w % 2 ^ nbits))

end Sys2Proof.Machine
end

