-- ==== Sys2Proof/Machine/Assembler.lean ====
section
/-! DEFINITION. The assembler syntax of a request (spec/30_encoding.md R53): one request on a line, the mnemonic and six
operands in the source's argument order, each a decimal or `0x` hexadecimal number. The requester's tool, not a part of
the block; the block receives only the words `encode` gives. -/

namespace Sys2Proof.Machine

/-- The value of a digit in a base. -/
def digitValue (base : Nat) (c : Char) : Option Nat :=
  let n := c.toNat
  let v := if 48 ≤ n ∧ n ≤ 57 then n - 48
    else if 65 ≤ n ∧ n ≤ 70 then n - 55
    else if 97 ≤ n ∧ n ≤ 102 then n - 87
    else base
  if v < base then some v else none

/-- A sequence of digits, most significant first, after the value read so far. -/
def digits (base : Nat) : Nat → List Char → Option Nat
  | acc, [] => some acc
  | acc, c :: cs =>
    match digitValue base c with
    | some d => digits base (acc * base + d) cs
    | none => none

/-- A number, "decimal or `0x` hexadecimal" (R53). -/
def number : List Char → Option Nat
  | '0' :: 'x' :: c :: cs => digits 16 0 (c :: cs)
  | c :: cs => digits 10 0 (c :: cs)
  | [] => none

/-- The words of a line: runs of characters between spaces and commas (log 19). -/
def words : List Char → List Char → List (List Char)
  | acc, [] => if acc.isEmpty then [] else [acc.reverse]
  | acc, c :: cs =>
    if c = ' ' ∨ c = ',' then (if acc.isEmpty then words [] cs else acc.reverse :: words [] cs)
    else words (c :: acc) cs

/-- A number that fits in `w` bits. -/
def operand (w : Nat) (cs : List Char) : Option (BitVec w) :=
  match number cs with
  | some n => if n < 2 ^ w then some (BitVec.ofNat w n) else none
  | none => none

/-- The request of one line (R53), for a block of any address width. -/
def assemble (line : List Char) : Option Instr :=
  match words [] line with
  | [m, dst, cap, vc, ct, src, len] =>
    match number dst, operand 32 cap, operand 8 vc, operand 8 ct, number src, operand 32 len with
    | some dst, some cap, some vc, some ct, some src, some len =>
      if m = "ENCODE_SHORT".toList then some (.encodeShort dst cap vc ct src len)
      else if m = "ENCODE_LONG".toList then some (.encodeLong dst cap vc ct src len)
      else none
    | _, _, _, _, _, _ => none
  | _ => none

end Sys2Proof.Machine
end

