-- ==== Sys2Proof/Safety.lean ====
section
/-! DEFINITION. The terms claims are stated in: when a request has a result (spec/20_memory.md R22, R23, R30), what a
legal response is (spec/60_exceptions.md R100), and the invariant of the machine between requests. -/

namespace Sys2Proof.Machine

/-- The regions share no byte and do not pass the top of the address space, so R30 gives the request a result. -/
def Footprint.Defined (addrW : Nat) (f : Footprint) : Prop :=
  (∀ a, f.src ≤ a → a < f.src + f.n → ¬ (f.dst ≤ a ∧ a < f.dst + f.size)) ∧
    f.dst + f.size ≤ 2 ^ addrW ∧ f.src + f.n ≤ 2 ^ addrW

/-- The platform admits every read of the source region and every write of the destination region (R22, R23). -/
def Footprint.Admitted (s : State) (f : Footprint) : Prop :=
  (∀ a, f.src ≤ a → a < f.src + f.n → s.admits .read a = true) ∧
    ∀ a, f.dst ≤ a → a < f.dst + f.size → s.admits .write a = true

/-- The request is one the block answers: it fails an argument check, or its regions have a result and the platform admits
its accesses (R30, R105, R130). It depends on the parameters `addrW` and `denied` alone, never on memory. -/
def Answerable (s : State) (i : Instr) : Prop :=
  ∀ f, footprint i = some f → f.Defined s.addrW ∧ f.Admitted s

/-- A request that can be presented, other agents' accesses being inside memory, and whose regions, if it has any, R30 gives
a result. -/
def Presentable (s : State) (q : Request) (during : List BusAccess) : Prop :=
  q.wf s.addrW = true ∧ firstOutside s.addrW during = none ∧
    ∀ f, footprint q.instr = some f → f.Defined s.addrW

/-- A presentable request that meets no stuck access: it receives its response (R130), also where other agents break a duty
towards it. -/
def Served (s : State) (q : Request) (during : List BusAccess) : Prop :=
  q.wf s.addrW = true ∧ firstOutside s.addrW during = none ∧ Answerable s q.instr

/-- A served request towards which other agents keep the duties of R123 and R125. A request that fails an argument check has
no regions to keep them for (log 8), and `DST + CAP` may pass the top of the address space (log 23), and the payload
lie in the buffer behind the packet (log 27). -/
def Orderly (s : State) (q : Request) (during : List BusAccess) : Prop :=
  Served s q during ∧ undisturbed q.instr during = true

/-- The length check of an operation on `LEN` (R43): 1 or 2 for a short packet, at most 65535 for a long one. -/
abbrev LengthValid (i : Instr) : Prop :=
  if i.op then i.len.toNat ≤ 65535 else i.len.toNat = 1 ∨ i.len.toNat = 2

/-- The bytes of the packet a request asks for (R63). -/
def packetSize (i : Instr) : Nat := if i.op then 4 + i.len.toNat + 2 else 4

/-- The request passes every argument check (R101 to R104). -/
abbrev Accepted (i : Instr) : Prop := i.vc.toNat ≤ 3 ∧ LengthValid i ∧ packetSize i ≤ i.cap.toNat

/-- The regions of a request's operands: `LEN` bytes at `SRC`, the packet's bytes at `DST` (R38). -/
def regionsOf (i : Instr) : Footprint := { src := i.src, n := i.len.toNat, dst := i.dst, size := packetSize i }

/-- The 64 payload bytes of the source's Scenario 3, as they stand in the 70-byte packet of 95_test_vectors.md V3 (offsets 4
to 67), with the 13 trailing zeros of 90_conflicts.md C2. The payload listing of V3 itself has one 0x88 more and one zero
fewer, and does not give the golden trailer (log 20). -/
def scenario3Payload : List Byte :=
  [0xE9, 0x82, 0x10, 0x06, 0x05, 0xA2, 0x0A, 0xA5, 0x12, 0x31, 0x23, 0x37, 0x83, 0x04, 0xBC, 0x27]
    ++ [0x38, 0x0C, 0x00, 0x03, 0x00, 0x00, 0x00, 0x0C, 0x00, 0x03, 0x00, 0x00, 0x00, 0x75, 0x75, 0x31]
    ++ [0x88, 0x88, 0x88, 0x88, 0x88, 0x88, 0x13, 0x88, 0x64, 0x64, 0x20, 0x88, 0x88, 0x88, 0x88, 0x88]
    ++ [0x88, 0x02, 0x88, 0x00, 0x00, 0x00, 0x00, 0x00, 0x00, 0x00, 0x00, 0x00, 0x00, 0x00, 0x00, 0x00]

/-- An access of another agent that breaks a duty towards a request that passes every check (log 8): it writes a byte of the
source region, or touches one of the `CAP` bytes at `DST`, the destination region and the buffer behind it (R29, R123, R125). -/
def BreaksDuty (i : Instr) (b : BusAccess) : Prop :=
  Accepted i ∧ ((∃ a v, b = .write a v ∧ i.src ≤ a ∧ a < i.src + i.len.toNat) ∨
    (i.dst ≤ b.addr ∧ b.addr < i.dst + i.cap.toNat))

/-- A byte at which other agents break a duty towards one of the operations in flight: raced on (R29), or in the buffer behind a
packet (R123). -/
def TouchedAt (is : List Instr) (during : List BusAccess) (a : Nat) : Prop :=
  ∃ b ∈ during, b.addr = a ∧ ∃ i ∈ is, BreaksDuty i b

/-- A response of R100: on success the length of a short packet or of a long one, on an error 0. -/
abbrev Response.Legal (r : Response) : Prop :=
  (r.status = .ok ∧ (r.length.toNat = 4 ∨ (6 ≤ r.length.toNat ∧ r.length.toNat ≤ 65541))) ∨
    (r.status ≠ .ok ∧ r.length = 0)

/-- An operation in flight between steps is stuck (R22, R23, R107): it passed every check, R30 gives its regions a result, and
the platform does not admit one of its accesses. -/
def IsStuck (s : State) (i : Instr) : Prop :=
  Accepted i ∧ (regionsOf i).Defined s.addrW ∧ ¬ (regionsOf i).Admitted s

/-- What holds of the machine between steps: `ADDR_W` is positive (92_eei_decisions.md D3), memory is in its canonical form
and inside the address space (R21), no request is being performed and no response waits (R7, R120), every request in flight
is a stuck one, and every response received was a legal one (R100). -/
def Inv (s : State) : Prop :=
  0 < s.addrW ∧ s.mem.wf ∧ (∀ c ∈ s.mem, c.1 < 2 ^ s.addrW) ∧ s.inFlight = none ∧ s.response = none ∧
    (∀ i ∈ s.stuck, IsStuck s i) ∧ ∀ d ∈ s.delivered, d.response.Legal

end Sys2Proof.Machine
end

