-- ==== Sys2Proof/Certificates/Slice0/Obligations.lean ====
section
/-! DEFINITION. The statements for the provers, in the order of spec/: the request, memory, the two operations, HeaderECC,
PayloadChecksum, errors, reset and steps. Each docstring names the rules it formalises. -/

open Sys2Proof Sys2Proof.Machine

/-- R41, R42: every value of `CMD` is a legal request; `CMD[0]` alone selects the operation, and `vc` and `ct` are
`CMD[15:8]` and `CMD[23:16]`. -/
def Obligations.EveryCommandWordDecodesByItsFields : Prop :=
  ∀ (addrW : Nat) (q : Request), q.src < 2 ^ addrW → q.dst < 2 ^ addrW →
    ∃ vc ct : Byte,
      vc.toNat = q.cmd.toNat / 2 ^ 8 % 2 ^ 8 ∧ ct.toNat = q.cmd.toNat / 2 ^ 16 % 2 ^ 8 ∧
      (q.cmd.toNat % 2 = 0 → decode addrW q = .ok (.encodeShort q.dst q.cap vc ct q.src q.len)) ∧
      (q.cmd.toNat % 2 = 1 → decode addrW q = .ok (.encodeLong q.dst q.cap vc ct q.src q.len))

/-- The round trip (R41, R53): decoding the words of an instruction gives it back, with every operand at every value, for
every address width. -/
def Obligations.DecodeOfEncodeGivesInstruction : Prop :=
  ∀ (addrW : Nat) (i : Instr), i.wf addrW = true → decode addrW (encode i) = .ok i

/-- The other direction (R41, R47): encoding what was decoded gives the request back, its reserved bits cleared. -/
def Obligations.EncodeOfDecodeClearsReservedBits : Prop :=
  ∀ (addrW : Nat) (q : Request) (i : Instr), decode addrW q = .ok i →
    encode i = { q with cmd := q.cmd &&& 0x00FFFF01 }

/-- R53's encoding, as numbers: `CMD = (ct << 16) | (vc << 8) | op`, the other words the operands; and three of the spec's
assembler lines (95_test_vectors.md P1, P3) give the command words listed there. -/
def Obligations.EncodingFollowsTheSyntaxRule : Prop :=
  (∀ i : Instr,
    (encode i).cmd.toNat = i.ct.toNat * 2 ^ 16 + i.vc.toNat * 2 ^ 8 + i.op.toNat ∧
      (encode i).len = i.len ∧ (encode i).cap = i.cap ∧ (encode i).src = i.src ∧ (encode i).dst = i.dst) ∧
  (assemble "ENCODE_SHORT 0x1008, 8, 0, 0x15, 0x2002, 2".toList).map (fun i => (encode i).cmd) = some 0x00150000 ∧
  (assemble "ENCODE_SHORT 0x500A, 4, 3, 0x05, 0x6004, 1".toList).map (fun i => (encode i).cmd) = some 0x00050300 ∧
  (assemble "ENCODE_LONG 0x5000, 10, 1, 0x39, 0x6000, 4".toList).map (fun i => (encode i).cmd) = some 0x00390101

/-- Sanity: command words of 95_test_vectors.md sections 3 and 4 decode to the operations they stand for (rows S4, S7, S12
and L5, L9). -/
def Obligations.ListedCommandWordsDecode : Prop :=
  decodeTableWord 32 0x00050300 = some (.encodeShort 0 0 3 0x05 0 0) ∧
  decodeTableWord 32 0x00C50000 = some (.encodeShort 0 0 0 0xC5 0 0) ∧
  decodeTableWord 32 0x0005FF00 = some (.encodeShort 0 0 255 0x05 0 0) ∧
  decodeTableWord 32 0x00290301 = some (.encodeLong 0 0 3 0x29 0 0) ∧
  decodeTableWord 32 0x00390401 = some (.encodeLong 0 0 4 0x39 0 0)

/-- R47: the result of a request does not depend on the reserved bits. Two requests that differ only there, arriving at
the same block, give the same next state, the same refusal, and fault alike. -/
def Obligations.ReservedBitsDoNotMatter : Prop :=
  ∀ (s : State) (w : Nat) (q : Request) (cmd : Word) (during : List BusAccess) (rest : List Input),
    q.cmd &&& 0x00FFFF01 = cmd &&& 0x00FFFF01 →
    let t := step { s with inputs := .request w q during :: rest }
    let t' := step { s with inputs := .request w { q with cmd := cmd } during :: rest }
    (∀ u, t = .next u ↔ t' = .next u) ∧ (∀ r, t = .refused r ↔ t' = .refused r) ∧
      ((∃ r, t = .fault r) ↔ ∃ r, t' = .fault r)

/-- R48: `ct` may take any value, the block does not check it: the response is the same for every `ct`. Only `ct[5:0]`
reaches the packet: two values that agree there give the same outcome, on every state. -/
def Obligations.CommandTypeIsNotCheckedAndItsHighBitsDrop : Prop :=
  ∀ (s : State) (dst : Nat) (cap : Word) (vc ct ct' : Byte) (src : Nat) (len : Word),
    (∀ t, exec (.encodeShort dst cap vc ct src len) s = .next t →
      ∃ t', exec (.encodeShort dst cap vc ct' src len) s = .next t' ∧ t'.response = t.response) ∧
    (∀ t, exec (.encodeLong dst cap vc ct src len) s = .next t →
      ∃ t', exec (.encodeLong dst cap vc ct' src len) s = .next t' ∧ t'.response = t.response) ∧
    (ct.toNat % 64 = ct'.toNat % 64 →
      exec (.encodeShort dst cap vc ct src len) s = exec (.encodeShort dst cap vc ct' src len) s ∧
      exec (.encodeLong dst cap vc ct src len) s = exec (.encodeLong dst cap vc ct' src len) s)

/-- R44: `CAP` is only compared with the packet size: any two capacities that are enough give the same outcome, on every
state. (That no byte at or beyond `DST + size` is written is the frame, below.)
That `DST + CAP` may pass the top of the address space (log 23), and the payload lie in the buffer behind the packet (log 27),
is the model's choice (DESIGN CHOICE, unsafe). -/
def Obligations.EnoughCapacityIsAllTheSame : Prop :=
  ∀ (s : State) (dst : Nat) (cap cap' : Word) (vc ct : Byte) (src : Nat) (len : Word),
    (4 ≤ cap.toNat → 4 ≤ cap'.toNat →
      exec (.encodeShort dst cap vc ct src len) s = exec (.encodeShort dst cap' vc ct src len) s) ∧
    (4 + len.toNat + 2 ≤ cap.toNat → 4 + len.toNat + 2 ≤ cap'.toNat →
      exec (.encodeLong dst cap vc ct src len) s = exec (.encodeLong dst cap' vc ct src len) s)

/-- R49, R60: the Data Identifier is `((vc << 6) | (ct & 0x3F)) & 0xFF`, and for every channel it is evaluated for it is
`{vc[1:0], ct[5:0]}`; with the two examples of R60. -/
def Obligations.DataIdentifierJoinsChannelAndType : Prop :=
  (∀ vc ct : Byte, (dataIdentifier vc ct).toNat = ((vc.toNat <<< 6) ||| (ct.toNat &&& 0x3F)) &&& 0xFF) ∧
  (∀ vc ct : Byte, vc.toNat ≤ 3 → (dataIdentifier vc ct).toNat = vc.toNat * 64 + ct.toNat % 64) ∧
  dataIdentifier 3 0x05 = 0xC5 ∧ dataIdentifier 0 0xC5 = 0x05

/-- Canonical memories that read alike are equal (the model's memory, log 3): no two states differ in a byte no read
shows. -/
def Obligations.CanonicalMemoriesReadingAlikeAreEqual : Prop :=
  ∀ m m' : Memory, m.wf → m'.wf → (∀ a, m.read a = m'.read a) → m = m'

/-- R21, R22, R23, R29 for the other agents' accesses between requests, whatever is stuck in flight: no byte but the one
accessed changes. Where the access breaks no duty towards a stuck request, a read changes nothing and a write sets its byte;
where it breaks one, the byte holds a free value (DESIGN CHOICE, log 22; behind the packet log 21). An address outside the `2
^ ADDR_W` bytes does not exist (log 13 for the fault). That another agent's read and write happen whatever the platform denies
the block is the model's choice too (DESIGN CHOICE, log 13, unsafe for what other agents can write). -/
def Obligations.BusAccessTouchesItsByteOnly : Prop :=
  ∀ (s : State) (b : BusAccess) (rest : List Input),
    (b.addr < 2 ^ s.addrW → ∃ (m : Memory) (n : Nat),
      step { s with inputs := .bus b :: rest } = .next { s with inputs := rest, mem := m, freeCount := n } ∧
      s.freeCount ≤ n ∧ (s.mem.wf → m.wf) ∧ (∀ a, a ≠ b.addr → m.read a = s.mem.read a) ∧
      ((∀ i ∈ s.flying, ¬ BreaksDuty i b) → n = s.freeCount ∧ (∀ a, b = .read a → m = s.mem) ∧
        ∀ a v, b = .write a v → s.mem.wf → m.read a = v) ∧
      ((∃ i ∈ s.flying, BreaksDuty i b) → s.mem.wf → ∃ k, m.read b.addr = Config.openByte k b.addr)) ∧
    (2 ^ s.addrW ≤ b.addr → step { s with inputs := .bus b :: rest } = .fault (.outsideMemory b.addr))

/-- R61, whole: the argument checks in order, the refusal of a shared byte, and on a request the platform admits exactly
the four `MemWrite`s of the pseudocode and the response `(OK, 4)`; `SRC + 1` is read only when `n == 2`; with the rule's
example (source Scenario 1). This is the completion of `ENCODE_SHORT`. -/
def Obligations.EncodeShortFollowsItsPseudocode : Prop :=
  ∀ (s : State) (dst : Nat) (cap : Word) (vc ct : Byte) (src : Nat) (len : Word),
    let out := exec (.encodeShort dst cap vc ct src len) s
    let f : Footprint := { src := src, n := len.toNat, dst := dst, size := 4 }
    let b0 := dataIdentifier vc ct
    let b1 := s.mem.read src
    let b2 := if len = 2 then s.mem.read (src + 1) else 0
    (3 < vc.toNat → out = .next { s with response := some ⟨.invalidChannel, 0⟩, inFlight := none }) ∧
    (vc.toNat ≤ 3 → len ≠ 1 → len ≠ 2 →
      out = .next { s with response := some ⟨.invalidLength, 0⟩, inFlight := none }) ∧
    (vc.toNat ≤ 3 → (len = 1 ∨ len = 2) → cap.toNat < 4 →
      out = .next { s with response := some ⟨.bufferTooSmall, 0⟩, inFlight := none }) ∧
    (vc.toNat ≤ 3 → (len = 1 ∨ len = 2) → 4 ≤ cap.toNat →
      (∃ a, src ≤ a ∧ a < src + len.toNat ∧ dst ≤ a ∧ a < dst + 4) → out = .refused .regionsOverlap) ∧
    (vc.toNat ≤ 3 → (len = 1 ∨ len = 2) → 4 ≤ cap.toNat → f.Defined s.addrW → f.Admitted s →
      out = .next { s with
        mem := (((s.mem.write dst b0).write (dst + 1) b1).write (dst + 2) b2).write (dst + 3) (headerEcc b0 b1 b2)
        response := some ⟨.ok, 4⟩, inFlight := none }) ∧
    (vc = 0 → ct = 0x05 → len = 1 → 4 ≤ cap.toNat → f.Defined s.addrW → f.Admitted s → b1 = 0x11 →
      out = .next { s with
        mem := (((s.mem.write dst 0x05).write (dst + 1) 0x11).write (dst + 2) 0x00).write (dst + 3) 0x36
        response := some ⟨.ok, 4⟩, inFlight := none })

/-- R62, whole: the argument checks in order, the refusal of a shared byte, and on a request the platform admits exactly
the `MemWrite`s of the pseudocode and the response `(OK, 4 + n + 2)`; with the rule's
example, for any 64-byte payload with the example's checksum (its bytes are in the statement after this one). This is the
completion of `ENCODE_LONG`. -/
def Obligations.EncodeLongFollowsItsPseudocode : Prop :=
  ∀ (s : State) (dst : Nat) (cap : Word) (vc ct : Byte) (src : Nat) (len : Word),
    let out := exec (.encodeLong dst cap vc ct src len) s
    let n := len.toNat
    let f : Footprint := { src := src, n := n, dst := dst, size := 4 + n + 2 }
    let b0 := dataIdentifier vc ct
    let b1 := BitVec.ofNat 8 n
    let b2 := BitVec.ofNat 8 (n / 256)
    let p := s.mem.readAll src n
    let c := (payloadChecksum p).toNat
    (3 < vc.toNat → out = .next { s with response := some ⟨.invalidChannel, 0⟩, inFlight := none }) ∧
    (vc.toNat ≤ 3 → 65535 < n →
      out = .next { s with response := some ⟨.payloadTooLarge, 0⟩, inFlight := none }) ∧
    (vc.toNat ≤ 3 → n ≤ 65535 → cap.toNat < 4 + n + 2 →
      out = .next { s with response := some ⟨.bufferTooSmall, 0⟩, inFlight := none }) ∧
    (vc.toNat ≤ 3 → n ≤ 65535 → 4 + n + 2 ≤ cap.toNat →
      (∃ a, src ≤ a ∧ a < src + n ∧ dst ≤ a ∧ a < dst + (4 + n + 2)) → out = .refused .regionsOverlap) ∧
    (vc.toNat ≤ 3 → n ≤ 65535 → 4 + n + 2 ≤ cap.toNat → f.Defined s.addrW → f.Admitted s →
      out = .next { s with
        mem := ((((((s.mem.write dst b0).write (dst + 1) b1).write (dst + 2) b2).write (dst + 3) (headerEcc b0 b1 b2)
          ).writeAll (dst + 4) p).write (dst + 4 + n) (BitVec.ofNat 8 c)).write (dst + 4 + n + 1) (BitVec.ofNat 8 (c / 256))
        response := some ⟨.ok, BitVec.ofNat 32 (4 + n + 2)⟩, inFlight := none }) ∧
    (vc = 0 → ct = 0x39 → n = 64 → 70 ≤ cap.toNat → f.Defined s.addrW → f.Admitted s → c = 0x0365 →
      out = .next { s with
        mem := s.mem.writeAll dst ([0x39, 0x40, 0x00, 0x25] ++ p ++ [0x65, 0x03])
        response := some ⟨.ok, 70⟩, inFlight := none })

/-- The example of R62 with its bytes (source Scenario 3, 95_test_vectors.md V3): the golden packet, header, payload and
trailer, and the checksums 90_conflicts.md C1 gives for the seeds 0xFFFF and 0x0000. The payload is the one inside V3's
packet, since V3's own payload listing differs from it (the model's reading, log 20). -/
def Obligations.GoldenLongPacketOfScenario3 : Prop :=
  payloadChecksum scenario3Payload = 0x0365 ∧ crcFrom 0x0000 scenario3Payload = 0x580E ∧
  ∀ (s : State) (dst : Nat) (cap : Word) (src : Nat),
    70 ≤ cap.toNat → Footprint.Defined s.addrW { src := src, n := 64, dst := dst, size := 70 } →
    Footprint.Admitted s { src := src, n := 64, dst := dst, size := 70 } →
    s.mem.readAll src 64 = scenario3Payload →
    exec (.encodeLong dst cap 0 0x39 src 64) s = .next { s with
      mem := s.mem.writeAll dst ([0x39, 0x40, 0x00, 0x25] ++ scenario3Payload ++ [0x65, 0x03])
      response := some ⟨.ok, 70⟩, inFlight := none }

/-- The frame of both operations (R38, R105, D25): when a request answers, every field but memory, the response and the
request in flight is as before; a request that fails a check leaves memory as it was; one that passes them all leaves every
byte outside its destination region, the bytes from `DST + size` on and the source region among them, reading as
before. -/
def Obligations.EncodeFrame : Prop :=
  ∀ (i : Instr) (s t : State), exec i s = .next t →
    t.addrW = s.addrW ∧ t.denied = s.denied ∧ t.inputs = s.inputs ∧ t.delivered = s.delivered ∧
    t.freeCount = s.freeCount ∧ t.stuck = s.stuck ∧ t.inFlight = none ∧ (∃ r, t.response = some r) ∧
    (¬ Accepted i → t.mem = s.mem) ∧
    (∀ f a, footprint i = some f → f.inDst a = false → t.mem.read a = s.mem.read a) ∧
    (∀ f a, footprint i = some f → f.inSrc a = true → t.mem.read a = s.mem.read a)

/-- R9, R63, R65: the invariants of every packet the block writes, read back from memory. -/
def Obligations.WrittenPacketsKeepThePacketInvariants : Prop :=
  ∀ (i : Instr) (s t : State) (n : Word), s.mem.wf → exec i s = .next t → t.response = some ⟨.ok, n⟩ →
    (t.mem.read i.dst).toNat / 64 = i.vc.toNat ∧
    (i.op = false → n.toNat = 4) ∧
    (i.op = true → n.toNat = 4 + i.len.toNat + 2 ∧
      (t.mem.read (i.dst + 1)).toNat + 256 * (t.mem.read (i.dst + 2)).toNat = i.len.toNat ∧
      ∀ k, k < i.len.toNat → t.mem.read (i.dst + 4 + k) = s.mem.read (i.src + k))

/-- R64, with the read footprint of R38: an operation's response and packet depend on the request and the source bytes
alone, whatever else the two states and their platforms hold. -/
def Obligations.PacketDependsOnRequestAndPayloadAlone : Prop :=
  ∀ (i : Instr) (s s' : State), Answerable s i → Answerable s' i →
    (∀ k, k < i.len.toNat → s.mem.read (i.src + k) = s'.mem.read (i.src + k)) →
    ∃ t t', exec i s = .next t ∧ exec i s' = .next t' ∧ t.response = t'.response ∧
      (Accepted i → s.mem.wf → s'.mem.wf →
        ∀ k, k < packetSize i → t.mem.read (i.dst + k) = t'.mem.read (i.dst + k))

/-- An operation answers exactly the requests that have a result and whose accesses the platform admits (R30, R107, R130);
whether it does never depends on memory.
That `DST + CAP` may pass the top of the address space (log 23), and the payload lie in the buffer behind the packet (log 27),
is the model's choice (DESIGN CHOICE, unsafe). -/
def Obligations.ExecAnswersExactlyTheAnswerable : Prop :=
  ∀ (i : Instr) (s : State), (∃ t, exec i s = .next t) ↔ Answerable s i

/-- R30: a request that passes every argument check and whose regions share a byte, or one of whose regions passes the top of
the address space, is refused; one that fails a check never is. Which refusal is named where the regions both overlap and pass
the top is the model's choice (DESIGN CHOICE, log 9, safe), and so is that `DST + CAP` passing the top alone refuses nothing
(DESIGN CHOICE, log 23), and that a payload in the buffer behind the packet does not either (DESIGN CHOICE, log 27, unsafe).
-/
def Obligations.UndefinedRegionsAreRefused : Prop :=
  ∀ (i : Instr) (s : State),
    (Accepted i → (∃ a, i.src ≤ a ∧ a < i.src + i.len.toNat ∧ i.dst ≤ a ∧ a < i.dst + packetSize i) →
      exec i s = .refused .regionsOverlap) ∧
    (Accepted i → (∀ a, i.src ≤ a → a < i.src + i.len.toNat → ¬ (i.dst ≤ a ∧ a < i.dst + packetSize i)) →
      (2 ^ s.addrW < i.dst + packetSize i ∨ 2 ^ s.addrW < i.src + i.len.toNat) →
      exec i s = .refused .regionPassesTop) ∧
    (¬ Accepted i → ∃ t, exec i s = .next t)

/-- R107, with R22 and R23: a request sticks only after passing every check, at an access the platform does not admit; it
gives no response and stays in flight; a stuck read has written nothing, and a stuck write has written exactly the bytes
before it (that reads come first and writes rise is the model's choice, log 6). A request with an access that is not
admitted never answers. -/
def Obligations.StuckRequestGivesNoResponse : Prop :=
  ∀ (i : Instr) (s : State),
    (∀ a left, exec i s = .fault (.stuckRead a left) →
      Accepted i ∧ i.src ≤ a ∧ a < i.src + i.len.toNat ∧ s.admits .read a = false ∧ left = s) ∧
    (∀ a left, exec i s = .fault (.stuckWrite a left) →
      Accepted i ∧ i.dst ≤ a ∧ a < i.dst + packetSize i ∧ s.admits .write a = false ∧
      left = { s with mem := left.mem } ∧ (∀ b, b < i.dst ∨ a ≤ b → left.mem.read b = s.mem.read b) ∧
      (s.mem.wf → ∀ k, i.dst + k < a →
        left.mem.read (i.dst + k) = (packetOf i (s.mem.readAll i.src i.len.toNat)).getD k 0)) ∧
    (Accepted i → (regionsOf i).Defined s.addrW → ¬ (regionsOf i).Admitted s →
      ∃ a left, exec i s = .fault (.stuckRead a left) ∨ exec i s = .fault (.stuckWrite a left))

/-- The masks of R72 give the parity equations of R72, for every header. R72 is the spec's own table "from general
knowledge" (log 10). -/
def Obligations.EccMasksGiveTheParityEquations : Prop :=
  ∀ (b0 b1 b2 : Byte) (k : Nat), k < 8 →
    (headerEcc b0 b1 b2).getLsbD k = parity (headerBits b0 b1 b2 &&& eccMasks.getD k 0)

/-- R74: the column form is the same function, for every header (derived by the spec from R72; log 10). -/
def Obligations.EccColumnsGiveTheSameCode : Prop :=
  ∀ d : BitVec 24, eccOf d = eccByColumns d

/-- R76: HeaderECC is linear over XOR, below 0x40, zero on the zero header; with the rule's examples (derived by the spec
from R72; log 10). -/
def Obligations.EccIsLinear : Prop :=
  (∀ a x : BitVec 24, eccOf (a ^^^ x) = eccOf a ^^^ eccOf x) ∧ (∀ d : BitVec 24, (eccOf d).toNat < 0x40) ∧
  headerEcc 0 0 0 = 0x00 ∧ headerEcc 0xFF 0xFF 0xFF = 0x3C ∧ headerEcc 0x39 0x00 0x00 = 0x0F ∧
  headerEcc 0x39 0xFF 0xFF = 0x35

/-- R74's consequence, "what lets a receiver correct a single flipped header bit": a header with one bit flipped has an ECC
that differs from the unflipped one by a pattern that names the bit, and that no single flipped ECC bit could give (derived
by the spec from R72; log 10). -/
def Obligations.EccLocatesASingleFlippedBit : Prop :=
  ∀ (d : BitVec 24) (i j : Nat), i < 24 → j < 24 →
    (eccOf (d ^^^ BitVec.twoPow 24 i) = eccOf (d ^^^ BitVec.twoPow 24 j) → i = j) ∧
    eccOf (d ^^^ BitVec.twoPow 24 i) ≠ eccOf d ∧
    ∀ k, k < 8 → eccOf (d ^^^ BitVec.twoPow 24 i) ≠ eccOf d ^^^ BitVec.twoPow 8 k

/-- R75: the three golden ECC bytes of the source. -/
def Obligations.GoldenEccBytes : Prop :=
  headerEcc 0x05 0x11 0x00 = 0x36 ∧ headerEcc 0x15 0xBC 0x4E = 0x35 ∧ headerEcc 0x39 0x40 0x00 = 0x25

/-- R14, R15: the table transcribed from R15 has 256 entries, each the one the loop of R14 generates (the loop is the
spec's "from general knowledge", the contents derived by it; log 11). -/
def Obligations.ChecksumTableIsTheGeneratedOne : Prop :=
  romTable.length = 256 ∧ ∀ i, i < 256 → rom i = romGenerated i

/-- R81: the update of the checksum for one more payload byte, payload byte 0 first, `table` being ROM. -/
def Obligations.ChecksumUpdatesByteByByte : Prop :=
  ∀ (p : List Byte) (b : Byte),
    let crc := payloadChecksum p
    payloadChecksum (p ++ [b]) = (crc >>> 8) ^^^ rom ((crc ^^^ b.setWidth 16) &&& 0xFF).toNat

/-- R84: the bitwise form computes the same checksum, for every payload (derived by the spec from R14 and R80; log 11). -/
def Obligations.BitwiseChecksumIsTheTableChecksum : Prop :=
  ∀ p : List Byte, payloadChecksum p = crcBitwiseFrom 0xFFFF p

/-- R85: appending to a payload continues the computation; with the rule's examples and the check value of R84 (derived by
the spec from R80). -/
def Obligations.ChecksumContinuesOverAppend : Prop :=
  (∀ p q : List Byte, payloadChecksum (p ++ q) = q.foldl crcByte (payloadChecksum p)) ∧
  payloadChecksum [0x00] = 0x0F87 ∧ payloadChecksum [0xFF] = 0x00FF ∧ payloadChecksum [0xFF, 0xFF] = 0x0000 ∧
  payloadChecksum [0x31, 0x32, 0x33, 0x34, 0x35, 0x36, 0x37, 0x38, 0x39] = 0x6F91

/-- 90_conflicts.md C1: "for a fixed payload the final value is a bijection of the seed", so the golden checksum 0x0365 of
Scenario 3 fixes the seed 0xFFFF. Which 64 bytes are Scenario 3's payload is the model's reading (DEDUCED, log 20), since
V3's own payload listing differs from the bytes inside its packet. -/
def Obligations.ChecksumIsABijectionOfItsSeed : Prop :=
  (∀ p : List Byte, Function.Bijective (fun seed => crcFrom seed p)) ∧
  ∀ seed : Half, crcFrom seed scenario3Payload = 0x0365 ↔ seed = 0xFFFF

/-- R83 (with 90_conflicts.md C3): an empty payload's checksum is the seed, and `ENCODE_LONG` with `LEN = 0` reads nothing
(it answers although the platform admits no read at all) and writes six bytes that end in `[0xFF, 0xFF]`. -/
def Obligations.EmptyPayloadPacket : Prop :=
  payloadChecksum [] = 0xFFFF ∧
  ∀ (s : State) (dst : Nat) (cap : Word) (vc ct : Byte) (src : Nat),
    vc.toNat ≤ 3 → 6 ≤ cap.toNat → src ≤ 2 ^ s.addrW → dst + 6 ≤ 2 ^ s.addrW →
    (∀ a, dst ≤ a → a < dst + 6 → s.admits .write a = true) →
    exec (.encodeLong dst cap vc ct src 0) s = .next { s with
      mem := s.mem.writeAll dst
        [dataIdentifier vc ct, 0x00, 0x00, headerEcc (dataIdentifier vc ct) 0x00 0x00, 0xFF, 0xFF]
      response := some ⟨.ok, 6⟩, inFlight := none }

/-- R100 to R104 in the priority of R106: the codes; which response an answered request gives, both ways; no operation
raises the other's length error; and no response but these. -/
def Obligations.ResponseStatusFollowsThePriority : Prop :=
  (Status.code .ok = 0 ∧ Status.code .invalidChannel = 1 ∧ Status.code .invalidLength = 2 ∧
    Status.code .payloadTooLarge = 3 ∧ Status.code .bufferTooSmall = 4 ∧ ∀ st : Status, st.code.toNat < 5) ∧
  ∀ (i : Instr) (s t : State), exec i s = .next t →
    (∃ st n, t.response = some ⟨st, n⟩ ∧ (st = .ok → n.toNat = packetSize i) ∧ (st ≠ .ok → n = 0)) ∧
    (t.response = some ⟨.invalidChannel, 0⟩ ↔ 3 < i.vc.toNat) ∧
    (t.response = some ⟨.invalidLength, 0⟩ ↔
      i.op = false ∧ i.vc.toNat ≤ 3 ∧ ¬ (i.len.toNat = 1 ∨ i.len.toNat = 2)) ∧
    (t.response = some ⟨.payloadTooLarge, 0⟩ ↔ i.op = true ∧ i.vc.toNat ≤ 3 ∧ 65535 < i.len.toNat) ∧
    (t.response = some ⟨.bufferTooSmall, 0⟩ ↔
      i.vc.toNat ≤ 3 ∧ LengthValid i ∧ i.cap.toNat < packetSize i) ∧
    (t.response = some ⟨.ok, BitVec.ofNat 32 (packetSize i)⟩ ↔ Accepted i)

/-- R105: a request that fails any check answers `(code, 0)` on every state, also on a platform that admits no access at
all, and leaves memory as it was. -/
def Obligations.FailingRequestTouchesNoMemory : Prop :=
  ∀ i : Instr, ¬ Accepted i →
    ∃ e, e ≠ Status.ok ∧ ∀ s : State, exec i s = .next { s with response := some ⟨e, 0⟩, inFlight := none }

/-- R108: an error changes no state of the block and of memory. A step that performs a failing request only hands its
requester the response; the block is at once ready, and the same request gives the same error again (R109).
That a requester which still waits for the response of a stuck request is answered like any other (log 25), and a request
whose regions meet those of a stuck one (log 26), is the model's choice (DESIGN CHOICE, unsafe).
That the block goes on past a stuck request is the model's reading of R130 (DEDUCED, log 24, unsafe). -/
def Obligations.ErrorLeavesTheBlockReady : Prop :=
  ∀ (s : State) (w w' : Nat) (q : Request) (rest : List Input),
    s.inFlight = none → s.response = none → q.wf s.addrW = true → ¬ Accepted q.instr →
    s.inputs = .request w q [] :: .request w' q [] :: rest →
    ∃ e, e ≠ Status.ok ∧
      step s = .next { s with
        inputs := .request w' q [] :: rest, delivered := s.delivered ++ [⟨w, ⟨e, 0⟩⟩] } ∧
      core.run 2 s = .next { s with
        inputs := rest, delivered := s.delivered ++ [⟨w, ⟨e, 0⟩⟩, ⟨w', ⟨e, 0⟩⟩] }

/-- A step runs the decoded request (R3, R7, R40): when a request arrives that decodes, that no access outside memory
accompanies and during which other agents keep the duties of R123 and R125 towards every operation in flight, the step
performs exactly `exec` on the state with the request in flight and delivers its response; where `exec` faults, the request is
stuck and the block goes on (R22, R130; DEDUCED, log 24), what it has written being open (DESIGN CHOICE, log 6). That other
agents' accesses come before `exec` (DEDUCED, log 18), and that a request which fails an argument check has no regions to keep
the duties for (DEDUCED, log 8, unsafe), are the model's readings. (Where a duty is broken: the two statements after this
one.)
That `DST + CAP` may pass the top of the address space (log 23), and the payload lie in the buffer behind the packet (log 27),
is the model's choice (DESIGN CHOICE, unsafe).
That a requester which still waits for the response of a stuck request is answered like any other (log 25), and a request
whose regions meet those of a stuck one (log 26), is the model's choice (DESIGN CHOICE, unsafe). -/
def Obligations.StepPerformsTheDecodedRequest : Prop :=
  ∀ (s : State) (w : Nat) (q : Request) (during : List BusAccess) (rest : List Input) (i : Instr),
    s.inputs = .request w q during :: rest → decode s.addrW q = .ok i →
    (∀ a ∈ during, a.addr < 2 ^ s.addrW) → (∀ j ∈ s.flying ++ [i], undisturbed j during = true) →
    let u := (busAccesses { s with inputs := rest } during).accept q
    step s =
      match exec i u with
      | .next t => .next (t.deliver w)
      | .fault _ => .next (getStuck i during u)
      | .refused r => .refused r

/-- R29, "every value for each byte raced on" (for a request that passes every check; log 8): a request during which another
agent writes a byte of its source region, or reads or writes a byte of its destination region, is answered, and so is one
during which another agent touches what belongs to a stuck request. Each byte touched so is read by the block as a free value
and holds a free value afterwards; the packet is that of the payload read, at every other byte; a byte outside the destination
region that is not touched so is as other agents leave it. That these bytes are free values and nothing else is the model's
choice among R29's two (DESIGN CHOICE, log 22; behind a stuck request's packet log 21).
That `DST + CAP` may pass the top of the address space (log 23), and the payload lie in the buffer behind the packet (log 27),
is the model's choice (DESIGN CHOICE, unsafe), and so is that a requester which still waits for the response of a stuck
request (log 25), and a request whose regions meet those of a stuck one (log 26), is answered too (DESIGN CHOICE, unsafe).
That the block goes on past a stuck request is the model's reading of R130 (DEDUCED, log 24, unsafe). -/
def Obligations.RacedBytesTakeEveryValue : Prop :=
  ∀ (s : State) (w : Nat) (q : Request) (during : List BusAccess) (rest : List Input),
    Inv s → s.inputs = .request w q during :: rest → Served s q during → Accepted q.instr →
    (∀ b ∈ during, ¬ (q.dst + packetSize q.instr ≤ b.addr ∧ b.addr < q.dst + q.cap.toNat)) →
    let touched := TouchedAt (s.flying ++ [q.instr]) during
    ∃ (t : State) (p : List Byte),
      step s = .next t ∧ t.inputs = rest ∧ t.flying = s.flying ∧
      t.delivered = s.delivered ++ [⟨w, ⟨.ok, BitVec.ofNat 32 (packetSize q.instr)⟩⟩] ∧
      p.length = q.len.toNat ∧
      (∀ k, k < q.len.toNat →
        (¬ touched (q.src + k) → p.getD k 0 = s.mem.read (q.src + k)) ∧
        (touched (q.src + k) → ∃ n, p.getD k 0 = Config.openByte n (q.src + k))) ∧
      (∀ k, k < packetSize q.instr → ¬ touched (q.dst + k) →
        t.mem.read (q.dst + k) = (packetOf q.instr p).getD k 0) ∧
      (∀ a, touched a → ∃ n, t.mem.read a = Config.openByte n a) ∧
      ∀ a, a < q.dst ∨ q.dst + packetSize q.instr ≤ a → ¬ touched a →
        t.mem.read a = (busAccesses s during).mem.read a

/-- R131, "A duty not kept leaves the request without a defined result", for duty (2) of R123 behind the packet: a request
that passes every check and during which another agent touches `[DST + size, DST + CAP)` receives its response (R130), but the
status is a free value (the length the one R18 gives it), and each byte of the packet and each byte at which a duty is broken
is a free value; every other byte is as other agents leave it. How far the result is open is the model's choice (DESIGN
CHOICE, log 21), and so is that a requester which still waits for the response of a stuck request (log 25), and a request
whose regions meet those of a stuck one (log 26), is answered too (DESIGN CHOICE, unsafe).
That `DST + CAP` may pass the top of the address space (log 23), and the payload lie in the buffer behind the packet (log 27),
is the model's choice (DESIGN CHOICE, unsafe).
That the block goes on past a stuck request is the model's reading of R130 (DEDUCED, log 24, unsafe). -/
def Obligations.BrokenOwnershipLeavesNoDefinedResult : Prop :=
  ∀ (s : State) (w : Nat) (q : Request) (during : List BusAccess) (rest : List Input),
    Inv s → s.inputs = .request w q during :: rest → Served s q during → Accepted q.instr →
    (∃ b ∈ during, q.dst + packetSize q.instr ≤ b.addr ∧ b.addr < q.dst + q.cap.toNat) →
    let touched := TouchedAt (s.flying ++ [q.instr]) during
    ∃ (t : State) (n : Nat) (r : Response),
      step s = .next t ∧ t.inputs = rest ∧ t.flying = s.flying ∧ t.delivered = s.delivered ++ [⟨w, r⟩] ∧
      r.status = statusOf (Config.openStatus n) ∧ (r.status = .ok → r.length.toNat = packetSize q.instr) ∧
      (r.status ≠ .ok → r.length = 0) ∧
      (∀ k, k < packetSize q.instr → ∃ m, t.mem.read (q.dst + k) = Config.openByte m (q.dst + k)) ∧
      (∀ a, touched a → ∃ m, t.mem.read a = Config.openByte m a) ∧
      ∀ a, a < q.dst ∨ q.dst + packetSize q.instr ≤ a → ¬ touched a →
        t.mem.read a = (busAccesses s during).mem.read a

/-- R18: a step that performs a request which meets no stuck access delivers exactly one response, to the requester that
issued it, and retains nothing of it; `length` is the packet size on success and 0 on failure. A request that meets a stuck
access gets none and stays in flight (R22, R107). Every other step delivers none. That this holds also of a request which R131
leaves without a defined result, that it is answered and its length fits its status, is the model's choice (DESIGN CHOICE, log
21, unsafe), and that the block goes on past a stuck request is its reading (DEDUCED, log 24).
That it answers also a requester which still waits for the response of a stuck request (log 25), and a request whose regions
meet those of a stuck one (log 26), is its choice (DESIGN CHOICE, unsafe).
That `DST + CAP` may pass the top of the address space (log 23), and the payload lie in the buffer behind the packet (log 27),
is the model's choice (DESIGN CHOICE, unsafe). -/
def Obligations.EachRequestGetsExactlyOneResponse : Prop :=
  ∀ (s t : State), step s = .next t →
    (∀ w q during rest, s.inputs = .request w q during :: rest →
      t.inFlight = none ∧ t.response = none ∧
      (Answerable s q.instr → t.stuck = s.flying ∧ ∃ r, t.delivered = s.delivered ++ [⟨w, r⟩] ∧
        (r.status = .ok → r.length.toNat = packetSize q.instr) ∧ (r.status ≠ .ok → r.length = 0)) ∧
      (¬ Answerable s q.instr → t.stuck = s.flying ++ [q.instr] ∧ t.delivered = s.delivered)) ∧
    ((∀ w q during rest, s.inputs ≠ .request w q during :: rest) → t.delivered = s.delivered)

/-- R114: the block has no requester identifier. The same request from another requester leads to the same state, but that
the response, if there is one, is delivered to the other. -/
def Obligations.RequesterDoesNotMatter : Prop :=
  ∀ (s t : State) (w w' : Nat) (q : Request) (during : List BusAccess) (rest : List Input),
    step { s with inputs := .request w q during :: rest } = .next t →
    ∃ rs : List Response, rs.length ≤ 1 ∧ t.delivered = s.delivered ++ rs.map (fun r => ⟨w, r⟩) ∧
      step { s with inputs := .request w' q during :: rest } =
        .next { t with delivered := s.delivered ++ rs.map (fun r => ⟨w', r⟩) }

/-- 92_eei_decisions.md D9: "with disjoint buffers no requester can tell a serial order from a concurrent one". Two requests
whose regions keep clear of each other give, in either order, the same memory and the same two responses.
That `DST + CAP` may pass the top of the address space (log 23), and the payload lie in the buffer behind the packet (log 27),
is the model's choice (DESIGN CHOICE, unsafe), and so is that a requester which still waits for the response of a stuck
request (log 25), and a request whose regions meet those of a stuck one (log 26), is answered too (DESIGN CHOICE, unsafe).
That the block goes on past a stuck request is the model's reading of R130 (DEDUCED, log 24, unsafe). -/
def Obligations.DisjointRequestsCommute : Prop :=
  ∀ (s : State) (w1 w2 : Nat) (q1 q2 : Request),
    Inv s → s.inputs = [.request w1 q1 [], .request w2 q2 []] → Orderly s q1 [] → Orderly s q2 [] →
    (∀ f1 f2 a, footprint q1.instr = some f1 → footprint q2.instr = some f2 →
      (f1.inDst a = true → f2.inSrc a = false ∧ f2.inDst a = false) ∧ (f2.inDst a = true → f1.inSrc a = false)) →
    ∃ (t t' : State) (r1 r2 : Response),
      core.run 2 s = .next t ∧
      core.run 2 { s with inputs := [.request w2 q2 [], .request w1 q1 []] } = .next t' ∧
      t.mem = t'.mem ∧ t.delivered = s.delivered ++ [⟨w1, r1⟩, ⟨w2, r2⟩] ∧
      t'.delivered = s.delivered ++ [⟨w2, r2⟩, ⟨w1, r1⟩]

/-- R130: progress. A program of presentable requests is performed whole, one request a step: every request that meets no
stuck access receives its response, each requester its own, in order, also past a stuck one (DEDUCED, log 24) and where other
agents break their duties (R29, R131: DESIGN CHOICE, logs 21, 22); one that meets a stuck access receives none (R22). Where
the duties towards a request are kept, its status is `OK` exactly if it is accepted. That a failing request whose operands
name bytes another agent touches keeps its error is the model's reading (DEDUCED, log 8, unsafe).
That `DST + CAP` may pass the top of the address space (log 23), and the payload lie in the buffer behind the packet (log 27),
is the model's choice (DESIGN CHOICE, unsafe).
That a requester which still waits for the response of a stuck request is answered like any other (log 25), and a request
whose regions meet those of a stuck one (log 26), is the model's choice (DESIGN CHOICE, unsafe). -/
def Obligations.EveryRequestMeetingNoStuckAccessIsAnswered : Prop :=
  ∀ (s : State) (program : List (Nat × Request × List BusAccess)),
    s.inputs = program.map (fun x => .request x.1 x.2.1 x.2.2) →
    (∀ x ∈ program, Presentable s x.2.1 x.2.2) →
    ∃ (t : State) (rs : List (Option Response)),
      core.run program.length s = .next t ∧ t.inputs = [] ∧ rs.length = program.length ∧
      t.delivered = s.delivered ++ (program.zip rs).filterMap (fun x => x.2.map (fun r => ⟨x.1.1, r⟩)) ∧
      ∀ k (h : k < program.length) (h' : k < rs.length),
        (rs[k].isSome = true ↔ Answerable s (program[k].2.1).instr) ∧
        ∀ r, rs[k] = some r → undisturbed (program[k].2.1).instr program[k].2.2 = true →
          (r.status = .ok ↔ Accepted (program[k].2.1).instr)

/-- R120: right after reset no request is in flight, no response waits and nothing has been delivered. (Memory with nothing
listed, `ADDR_W` = 32 and a platform that admits every access are the model's choices, logs 1 to 4: this states only that
every address of the space is admitted and reads as the blank byte.) -/
def Obligations.ResetStateIsIdle : Prop :=
  State.reset.inFlight = none ∧ State.reset.stuck = [] ∧ State.reset.response = none ∧ State.reset.inputs = [] ∧
  State.reset.delivered = [] ∧
  ∀ a, a < 2 ^ State.reset.addrW → State.reset.mem.read a = Config.blankByte ∧
    State.reset.admits .read a = true ∧ State.reset.admits .write a = true

/-- R120, for a reset between requests: no request in flight, no response waiting, memory and everything else
unchanged. -/
def Obligations.ResetBetweenRequestsKeepsMemory : Prop :=
  ∀ (s : State) (rest : List Input), s.flying = [] → s.inputs = .reset :: rest →
    step s = .next { s with inputs := rest, response := none }

/-- R121: a reset while requests are in flight abandons them: no response, nothing in flight any more, no byte outside their
destination regions changed (but by other agents' own accesses), their source regions unchanged among them, and each byte of
the destination regions unspecified. The first clause is a request cut by a reset, beside whatever is stuck and whatever other
agents do meanwhile; the second a reset with requests stuck in flight. That a cut request is an arrival of its own and the
unspecified bytes are free values (log 7), that each byte at which other agents break a duty is one too (logs 21, 22), and
that their accesses come first (DEDUCED, log 18), are the model's choices (DESIGN CHOICE). -/
def Obligations.ResetAbandonsTheRequestInFlight : Prop :=
  (∀ (s t : State) (q : Request) (during : List BusAccess) (rest : List Input),
    s.inputs = .requestCutByReset q during :: rest → step s = .next t →
    let touched := TouchedAt (s.flying ++ [q.instr]) during
    t.flying = [] ∧ t.response = none ∧ t.delivered = s.delivered ∧ t.inputs = rest ∧
      ((∀ i ∈ s.flying ++ [q.instr], ¬ Accepted i) → t.mem = (busAccesses s during).mem) ∧
      (∀ a, (∀ i ∈ s.flying ++ [q.instr], Accepted i → a < i.dst ∨ i.dst + packetSize i ≤ a) → ¬ touched a →
        t.mem.read a = (busAccesses s during).mem.read a) ∧
      (Accepted q.instr → ∀ a, q.src ≤ a → a < q.src + q.len.toNat → ¬ touched a →
        (∀ i ∈ s.flying, Accepted i → a < i.dst ∨ i.dst + packetSize i ≤ a) → t.mem.read a = s.mem.read a) ∧
      (s.mem.wf → ∀ a, (touched a ∨ ∃ i ∈ s.flying ++ [q.instr], Accepted i ∧ i.dst ≤ a ∧ a < i.dst + packetSize i) →
        ∃ n, t.mem.read a = Config.openByte n a)) ∧
  (∀ (s : State) (rest : List Input), s.inputs = .reset :: rest →
      ∃ t, step s = .next t ∧ t.flying = [] ∧ t.response = none ∧ t.delivered = s.delivered ∧ t.inputs = rest ∧
      ((∀ i ∈ s.flying, ¬ Accepted i) → t.mem = s.mem) ∧
      (∀ a, (∀ i ∈ s.flying, Accepted i → a < i.dst ∨ i.dst + packetSize i ≤ a) → t.mem.read a = s.mem.read a) ∧
      (∀ i ∈ s.flying, Accepted i → (regionsOf i).Defined s.addrW →
        ∀ a, i.src ≤ a → a < i.src + i.len.toNat →
          (∀ j ∈ s.flying, j ≠ i → Accepted j → a < j.dst ∨ j.dst + packetSize j ≤ a) → t.mem.read a = s.mem.read a) ∧
      (s.mem.wf → ∀ i ∈ s.flying, Accepted i → ∀ a, i.dst ≤ a → a < i.dst + packetSize i →
        ∃ n, t.mem.read a = Config.openByte n a))

/-- When a request cut by a reset is abandoned (R121): whenever it can be presented, and has no regions or regions that R30
gives a result; also where it would have been stuck, and whatever other agents do inside memory meanwhile. That a cut request
is an arrival of its own (log 7), and that one raced on (log 22) or whose buffer behind the packet another agent touches (log
21) has a next state, are the model's choices (DESIGN CHOICE).
That `DST + CAP` may pass the top of the address space (log 23), and the payload lie in the buffer behind the packet (log 27),
is the model's choice (DESIGN CHOICE, unsafe).
That the block takes on a request past a stuck request is the model's reading of R130 (DEDUCED, log 24, unsafe). -/
def Obligations.CutRequestIsAbandonedWhenPresentable : Prop :=
  ∀ (s : State) (q : Request) (during : List BusAccess) (rest : List Input),
    s.inputs = .requestCutByReset q during :: rest → Presentable s q during →
    ∃ t, step s = .next t ∧ t.flying = [] ∧ t.response = none ∧ t.delivered = s.delivered ∧ t.inputs = rest

/-- R122: after reset the block accepts a request at once: the step after the one that takes the reset answers it, whatever
state the block was in, as a request that keeps the duties of R123 is answered.
That `DST + CAP` may pass the top of the address space (log 23), and the payload lie in the buffer behind the packet (log 27),
is the model's choice (DESIGN CHOICE, unsafe).
That the requester of an abandoned request, which never got its response, is answered too is the model's choice (DESIGN
CHOICE, log 25, unsafe). -/
def Obligations.RequestRightAfterResetIsAnswered : Prop :=
  ∀ (s : State) (w : Nat) (q : Request) (rest : List Input),
    s.inputs = .reset :: .request w q [] :: rest → Orderly s q [] →
    ∃ (t : State) (r : Response), core.run 2 s = .next t ∧ t.inputs = rest ∧ t.delivered = s.delivered ++ [⟨w, r⟩] ∧
      (r.status = .ok ↔ Accepted q.instr)

/-- R116: nothing wakes the block but an arrival. And R22 with R32 and R130: a stuck request stays in flight until a reset,
without a response, and the block performs the requests that arrive meanwhile. That it goes on past a stuck request is the
model's reading of R130 (DEDUCED, log 24), and that it does so also where other agents break their duties is its choice
(DESIGN CHOICE, logs 21, 22).
That `DST + CAP` may pass the top of the address space (log 23), and the payload lie in the buffer behind the packet (log 27),
is the model's choice (DESIGN CHOICE, unsafe).
That a requester which still waits for the response of a stuck request is answered like any other (log 25), and a request
whose regions meet those of a stuck one (log 26), is the model's choice (DESIGN CHOICE, unsafe). -/
def Obligations.StuckRequestsStayAndOthersAreAnswered : Prop :=
  (∀ s : State, s.inputs = [] → step s = .next s) ∧
  (∀ s t : State, step s = .next t → (∀ rest, s.inputs ≠ .reset :: rest) →
    (∀ q during rest, s.inputs ≠ .requestCutByReset q during :: rest) →
    ∃ l, l.length ≤ 1 ∧ t.flying = s.flying ++ l) ∧
  (∀ (s : State) (w : Nat) (q : Request) (during : List BusAccess) (rest : List Input),
    s.inputs = .request w q during :: rest → Served s q during →
    ∃ (t : State) (r : Response),
      step s = .next t ∧ t.flying = s.flying ∧ t.delivered = s.delivered ++ [⟨w, r⟩])

/-- R22, R23: a request that meets an access the platform does not admit gets stuck: no response, in flight from then on. A
byte of its destination region that no duty was broken at is unwritten, or holds the packet's byte if the platform admits that
write and every read it is made of, the payload being what the block read; which of the two is open (R28, DESIGN CHOICE, log
6). Where another agent touches the buffer behind the packet, each byte it may write holds a free value (DESIGN CHOICE, log
21). Each byte at which a duty was broken, towards this request or an earlier stuck one, is read as a free value and holds one
afterwards (DESIGN CHOICE, logs 21, 22). Every other byte is as other agents leave it, their accesses counted as done
(DEDUCED, log 18). That the machine goes on is the model's reading (DEDUCED, log 24).
That `DST + CAP` may pass the top of the address space (log 23), and the payload lie in the buffer behind the packet (log 27),
is the model's choice (DESIGN CHOICE, unsafe). -/
def Obligations.RequestMeetingAStuckAccessStaysInFlight : Prop :=
  ∀ (s : State) (w : Nat) (q : Request) (during : List BusAccess) (rest : List Input),
    Inv s → s.inputs = .request w q during :: rest → q.wf s.addrW = true → firstOutside s.addrW during = none →
    IsStuck s q.instr →
    let touched := TouchedAt (s.flying ++ [q.instr]) during
    let before := (busAccesses s during).mem
    ∃ (t : State) (p : List Byte), step s = .next t ∧ t.inputs = rest ∧ t.flying = s.flying ++ [q.instr] ∧
      t.response = none ∧ t.delivered = s.delivered ∧ p.length = q.len.toNat ∧
      (∀ k, k < q.len.toNat →
        (¬ touched (q.src + k) → p.getD k 0 = before.read (q.src + k)) ∧
        (touched (q.src + k) → ∃ n, p.getD k 0 = Config.openByte n (q.src + k))) ∧
      (∀ a, touched a → ∃ n, t.mem.read a = Config.openByte n a) ∧
      (∀ a, a < q.dst ∨ q.dst + packetSize q.instr ≤ a ∨ s.admits .write a = false → ¬ touched a →
        t.mem.read a = before.read a) ∧
      (∀ k, k < packetSize q.instr → ¬ touched (q.dst + k) →
        (∀ b ∈ during, ¬ (q.dst + packetSize q.instr ≤ b.addr ∧ b.addr < q.dst + q.cap.toNat)) →
        t.mem.read (q.dst + k) = before.read (q.dst + k) ∨
          (s.admits .write (q.dst + k) = true ∧
            (∀ j, j < q.len.toNat → dependsOn q.instr k j = true → s.admits .read (q.src + j) = true) ∧
            t.mem.read (q.dst + k) = (packetOf q.instr p).getD k 0)) ∧
      ∀ a, q.dst ≤ a → a < q.dst + packetSize q.instr → s.admits .write a = true →
        (∃ b ∈ during, q.dst + packetSize q.instr ≤ b.addr ∧ b.addr < q.dst + q.cap.toNat) →
        ∃ n, t.mem.read a = Config.openByte n a

/-- R29, R38, R123, the frame of a step that takes a request, whatever is stuck and whatever other agents do: each byte at
which other agents break a duty towards a request in flight holds a free value (DESIGN CHOICE, logs 21, 22; a failing request
is owed none: DEDUCED, log 8, unsafe), and every other byte outside the request's destination region is as other agents leave
it, their accesses counted as done (DEDUCED, log 18).
That `DST + CAP` may pass the top of the address space (log 23), and the payload lie in the buffer behind the packet (log 27),
is the model's choice (DESIGN CHOICE, unsafe), and so is that a requester which still waits for the response of a stuck
request (log 25), and a request whose regions meet those of a stuck one (log 26), is taken on (DESIGN CHOICE, unsafe).
That the block goes on past a stuck request, and a step answers where a request gets stuck, are the model's reading of R130
(DEDUCED, log 24, unsafe). -/
def Obligations.TouchedBytesAreOpenAndOthersStay : Prop :=
  ∀ (s : State) (w : Nat) (q : Request) (during : List BusAccess) (rest : List Input),
    Inv s → s.inputs = .request w q during :: rest → Presentable s q during →
    let touched := TouchedAt (s.flying ++ [q.instr]) during
    ∃ t, step s = .next t ∧ t.inputs = rest ∧ (∀ a, touched a → ∃ n, t.mem.read a = Config.openByte n a) ∧
      ∀ a, (Accepted q.instr → a < q.dst ∨ q.dst + packetSize q.instr ≤ a) → ¬ touched a →
        t.mem.read a = (busAccesses s during).mem.read a

/-- R50, R51, R67: the source bytes a packet byte is made of, by which a stuck request can have written it or not (log 6). Two
payloads that agree on those bytes give the same packet byte; and they are, of a short packet, the byte itself for byte 1 and 2
and all of them for the ECC; of a long one, the byte itself for a payload byte and all of them for the checksum. -/
def Obligations.PacketBytesAreMadeOfTheirSourceBytes : Prop :=
  (∀ (i : Instr) (p p' : List Byte) (k : Nat), Accepted i → p.length = i.len.toNat → p'.length = i.len.toNat →
    k < packetSize i → (∀ j, j < i.len.toNat → dependsOn i k j = true → p.getD j 0 = p'.getD j 0) →
    (packetOf i p).getD k 0 = (packetOf i p').getD k 0) ∧
  ∀ (i : Instr) (j : Nat), Accepted i → j < i.len.toNat →
    (i.op = false → ∀ k, k < 4 → (dependsOn i k j = true ↔ k = 1 + j ∨ k = 3)) ∧
    (i.op = true → ∀ k, k < packetSize i →
      (dependsOn i k j = true ↔ k = 4 + j ∨ k = 4 + i.len.toNat ∨ k = 4 + i.len.toNat + 1))

/-- A step changes neither `ADDR_W`, a parameter (R4), nor what the platform admits, which no step changes by the model's
choice (DESIGN CHOICE, log 2); it takes at most one arrival (log 4), and the counter of free values never falls (logs 6, 7,
21, 22). -/
def Obligations.StepKeepsTheParameters : Prop :=
  ∀ s t : State, step s = .next t →
    t.addrW = s.addrW ∧ t.denied = s.denied ∧ t.inputs = s.inputs.tail ∧ s.freeCount ≤ t.freeCount

/-- The invariant holds right after reset. -/
def Obligations.ResetMeetsTheInvariant : Prop :=
  Inv State.reset

/-- The invariant (memory canonical and inside the address space; between steps no request being performed, no response
waiting, and only stuck requests in flight; every response received legal) is kept by every step, from every state that meets
it (R7, R21, R22, R100, R107, R120). That the response of a request which R131 leaves without a defined result is legal too is
the model's choice (DESIGN CHOICE, log 21).
That the block goes on past a stuck request is the model's reading of R130 (DEDUCED, log 24, unsafe). -/
def Obligations.EveryStepKeepsTheInvariant : Prop :=
  ∀ s t : State, Inv s → step s = .next t → Inv t
end

