-- ==== Sys2Proof/Laws/Memory.lean ====
section
/-! SUPPORT. The laws of memory: a read after a write, the canonical form, and the same over consecutive addresses. -/

namespace Sys2Proof.Machine.Memory

@[simp] theorem read_nil (a : Nat) : Memory.read [] a = Config.blankByte := rfl

theorem read_cons (c : Host.Cell) (m : Memory) (a : Nat) :
    Memory.read (c :: m) a = if c.1 = a then c.2 else Memory.read m a := rfl

/-- The empty memory is canonical. -/
theorem wf_nil : Memory.wf [] := by simp [Memory.wf]

theorem wf_cons {c : Host.Cell} {m : Memory} :
    Memory.wf (c :: m) ↔ (∀ d ∈ m, c.1 < d.1) ∧ c.2 ≠ Config.blankByte ∧ Memory.wf m := by
  simp only [Memory.wf, List.pairwise_cons, List.mem_cons, forall_eq_or_imp]
  tauto

/-- An address no cell lists reads as the blank byte. -/
theorem read_of_not_listed {m : Memory} {a : Nat} (h : ∀ c ∈ m, c.1 ≠ a) : m.read a = Config.blankByte := by
  induction m with
  | nil => rfl
  | cons c m ih => simp [read_cons, h c (by simp), ih (fun d hd => h d (by simp [hd]))]

/-- A write leaves every other address alone, in any memory. -/
theorem read_write_ne {m : Memory} {a b : Nat} {v : Byte} (h : b ≠ a) : (m.write a v).read b = m.read b := by
  induction m with
  | nil => by_cases hv : v = Config.blankByte <;> simp [Memory.write, hv, read_cons, h.symm]
  | cons c m ih =>
    by_cases h1 : a < c.1 <;> by_cases h2 : c.1 = a <;> by_cases hv : v = Config.blankByte <;>
      simp [Memory.write, h1, h2, hv, read_cons, h.symm, ih]
    all_goals simp_all

/-- A read after a write to the same address gives the byte written. -/
theorem read_write_same {m : Memory} (hm : m.wf) (a : Nat) (v : Byte) : (m.write a v).read a = v := by
  induction m with
  | nil => by_cases hv : v = Config.blankByte <;> simp [Memory.write, hv, read_cons]
  | cons c m ih =>
    obtain ⟨hlt, hne, hwf⟩ := wf_cons.1 hm
    simp only [Memory.write]
    split
    · have hnl : ∀ d ∈ c :: m, d.1 ≠ a := by
        intro d hd
        rcases List.mem_cons.1 hd with rfl | hd
        · omega
        · have := hlt d hd; omega
      by_cases hv : v = Config.blankByte
      · simp [hv, read_of_not_listed hnl]
      · simp [hv, read_cons]
    · split
      · by_cases hv : v = Config.blankByte
        · have : ∀ d ∈ m, d.1 ≠ a := fun d hd => by have := hlt d hd; omega
          simp [hv, read_of_not_listed this]
        · simp [hv, read_cons]
      · rename_i h2
        simp [read_cons, h2, ih hwf]

/-- A read after a write, in one equation. -/
theorem read_write {m : Memory} (hm : m.wf) (a b : Nat) (v : Byte) :
    (m.write a v).read b = if b = a then v else m.read b := by
  by_cases h : b = a
  · subst h; simp [read_write_same hm]
  · simp [h, read_write_ne h]

/-- Every cell of the memory after a write was there before or is the one written. -/
theorem mem_write {m : Memory} {a : Nat} {v : Byte} {c : Host.Cell} (h : c ∈ m.write a v) :
    c ∈ m ∨ (c = (a, v) ∧ v ≠ Config.blankByte) := by
  induction m with
  | nil => by_cases hv : v = Config.blankByte <;> simp_all [Memory.write]
  | cons d m ih =>
    by_cases h1 : a < d.1 <;> by_cases h2 : d.1 = a <;> by_cases hv : v = Config.blankByte <;>
      simp [Memory.write, h1, h2, hv] at h ⊢ <;> (try tauto)
    all_goals rcases h with h | h <;> simp_all

/-- A write keeps the canonical form. -/
theorem wf_write {m : Memory} (hm : m.wf) (a : Nat) (v : Byte) : (m.write a v).wf := by
  induction m with
  | nil => by_cases hv : v = Config.blankByte <;> simp [Memory.write, Memory.wf, hv]
  | cons c m ih =>
    obtain ⟨hlt, hne, hwf⟩ := wf_cons.1 hm
    simp only [Memory.write]
    split
    · rename_i h1
      by_cases hv : v = Config.blankByte
      · simpa [hv] using hm
      · simp only [hv, if_false]
        refine wf_cons.2 ⟨fun d hd => ?_, hv, hm⟩
        rcases List.mem_cons.1 hd with rfl | hd
        · exact h1
        · have := hlt d hd; simp only; omega
    · split
      · rename_i h2
        by_cases hv : v = Config.blankByte
        · simpa [hv] using hwf
        · simp only [hv, if_false]
          exact wf_cons.2 ⟨fun d hd => by have := hlt d hd; simp only; omega, hv, hwf⟩
      · refine wf_cons.2 ⟨fun d hd => ?_, hne, ih hwf⟩
        rcases mem_write hd with hd | ⟨rfl, -⟩
        · exact hlt d hd
        · simp only; omega

/-- Writing the byte an address already holds changes nothing. -/
theorem write_read_self {m : Memory} (hm : m.wf) (a : Nat) : m.write a (m.read a) = m := by
  induction m with
  | nil => simp [Memory.write]
  | cons c m ih =>
    obtain ⟨hlt, hne, hwf⟩ := wf_cons.1 hm
    obtain ⟨k, w⟩ := c
    simp only [Memory.write, read_cons]
    by_cases h2 : k = a
    · subst h2; simp_all
    · by_cases h1 : a < k
      · have : Memory.read m a = Config.blankByte :=
          read_of_not_listed fun d hd => by have := hlt d hd; simp only at this; omega
        simp [h1, h2, this]
      · simp [h1, h2, ih hwf]

/-- Consecutive writes keep the canonical form. -/
theorem wf_writeAll {m : Memory} (hm : m.wf) (a : Nat) (bs : List Byte) : (m.writeAll a bs).wf := by
  induction bs generalizing m a with
  | nil => exact hm
  | cons b bs ih => exact ih (wf_write hm a b) (a + 1)

/-- Consecutive writes leave every address outside their range alone, in any memory. -/
theorem read_writeAll_outside {m : Memory} {a b : Nat} {bs : List Byte} (h : b < a ∨ a + bs.length ≤ b) :
    (m.writeAll a bs).read b = m.read b := by
  induction bs generalizing m a with
  | nil => rfl
  | cons v bs ih =>
    simp only [List.length_cons] at h
    rw [Memory.writeAll, ih (by omega), read_write_ne (by omega)]

/-- Inside their range, consecutive writes leave the bytes written. -/
theorem read_writeAll_inside {m : Memory} (hm : m.wf) {a : Nat} {bs : List Byte} {k : Nat} (hk : k < bs.length) :
    (m.writeAll a bs).read (a + k) = bs[k] := by
  induction bs generalizing m a k with
  | nil => simp at hk
  | cons v bs ih =>
    rw [Memory.writeAll]
    cases k with
    | zero => rw [read_writeAll_outside (by omega), Nat.add_zero, read_write_same hm]; rfl
    | succ k =>
      have := ih (wf_write hm a v) (a := a + 1) (k := k) (by simpa using hk)
      rw [show a + (k + 1) = a + 1 + k by omega, this]; rfl

/-- Every cell after consecutive writes was there before or lies in their range. -/
theorem mem_writeAll {m : Memory} {a : Nat} {bs : List Byte} {c : Host.Cell} (h : c ∈ m.writeAll a bs) :
    c ∈ m ∨ (a ≤ c.1 ∧ c.1 < a + bs.length) := by
  induction bs generalizing m a with
  | nil => exact .inl h
  | cons b bs ih =>
    rcases ih h with h | h
    · rcases mem_write h with h | ⟨rfl, -⟩
      · exact .inl h
      · right; simp
    · right; simp only [List.length_cons]; omega

/-- Writes at consecutive addresses split where their list does. -/
theorem writeAll_append (m : Memory) (a : Nat) (bs cs : List Byte) :
    m.writeAll a (bs ++ cs) = (m.writeAll a bs).writeAll (a + bs.length) cs := by
  induction bs generalizing m a with
  | nil => rfl
  | cons b bs ih =>
    simp only [List.cons_append, Memory.writeAll, ih, List.length_cons]
    rw [show a + 1 + bs.length = a + (bs.length + 1) by omega]

/-- Writing some bytes keeps the canonical form. -/
theorem wf_writeSome {m : Memory} (hm : m.wf) (a : Nat) (bs : List Byte) (ks : List Nat) : (m.writeSome a bs ks).wf := by
  induction ks generalizing m with
  | nil => exact hm
  | cons k ks ih => exact ih (wf_write hm _ _)

/-- A byte that is none of those written reads as before. -/
theorem read_writeSome_kept {a b : Nat} {ks : List Nat} (h : ∀ k ∈ ks, b ≠ a + k) (m : Memory) (bs : List Byte) :
    (m.writeSome a bs ks).read b = m.read b := by
  induction ks generalizing m with
  | nil => rfl
  | cons k ks ih =>
    exact (ih (fun j hj => h j (by simp [hj])) _).trans (read_write_ne (h k (by simp)))

/-- A byte written holds its byte of the packet. -/
theorem read_writeSome_written {m : Memory} (hm : m.wf) (a : Nat) (bs : List Byte) {ks : List Nat} {k : Nat}
    (h : k ∈ ks ∨ m.read (a + k) = bs.getD k 0) : (m.writeSome a bs ks).read (a + k) = bs.getD k 0 := by
  induction ks generalizing m with
  | nil => exact h.resolve_left (by simp)
  | cons j ks ih =>
    refine ih (wf_write hm _ _) ?_
    by_cases hj : k = j
    · subst hj; exact .inr (read_write_same hm _ _)
    · rcases h with h | h
      · exact .inl (by simpa [hj] using h)
      · exact .inr (by rw [← h]; exact read_write_ne (by omega))

/-- Every cell of the memory after some bytes are written was there before, or is at one of the addresses written. -/
theorem mem_writeSome {m : Memory} {a : Nat} {bs : List Byte} {ks : List Nat} {c : Host.Cell}
    (h : c ∈ m.writeSome a bs ks) : c ∈ m ∨ ∃ k ∈ ks, c.1 = a + k := by
  induction ks generalizing m with
  | nil => exact .inl h
  | cons k ks ih =>
    rcases ih h with h | ⟨j, hj, h⟩
    · rcases mem_write h with h | ⟨rfl, -⟩
      · exact .inl h
      · exact .inr ⟨k, by simp, rfl⟩
    · exact .inr ⟨j, by simp [hj], h⟩

@[simp] theorem length_readAll (m : Memory) (a : Nat) (n : Nat) : (m.readAll a n).length = n := by
  induction n generalizing a with
  | zero => rfl
  | succ n ih => simp [Memory.readAll, ih]

/-- The bytes at consecutive addresses, one by one. -/
theorem getElem_readAll (m : Memory) (a : Nat) (n k : Nat) (h : k < (m.readAll a n).length) :
    (m.readAll a n)[k] = m.read (a + k) := by
  induction n generalizing a k with
  | zero => simp at h
  | succ n ih =>
    cases k with
    | zero => rfl
    | succ k =>
      simp only [Memory.readAll, List.getElem_cons_succ]
      rw [ih]; congr 1; omega

/-- Memories that agree on a range read alike there. -/
theorem readAll_congr {m m' : Memory} {a : Nat} {n : Nat} (h : ∀ b, a ≤ b → b < a + n → m.read b = m'.read b) :
    m.readAll a n = m'.readAll a n := by
  refine List.ext_getElem (by simp) fun k h1 h2 => ?_
  rw [getElem_readAll, getElem_readAll]
  exact h _ (by omega) (by simp at h1; omega)

end Sys2Proof.Machine.Memory
end

