-- ==== Sys2Proof/Laws/State.lean ====
section
/-! SUPPORT. What each update of the state leaves in each field: one lemma per field and update. -/

namespace Sys2Proof.Machine

variable (s : State) (a : Nat) (v : Byte) (st : Status) (n : Word) (q : Request) (w : Nat)

@[simp] theorem memWrite_addrW : (s.memWrite a v).addrW = s.addrW := rfl
@[simp] theorem memWrite_denied : (s.memWrite a v).denied = s.denied := rfl
@[simp] theorem memWrite_mem : (s.memWrite a v).mem = s.mem.write a v := rfl
@[simp] theorem memWrite_stuck : (s.memWrite a v).stuck = s.stuck := rfl
@[simp] theorem memWrite_inFlight : (s.memWrite a v).inFlight = s.inFlight := rfl
@[simp] theorem memWrite_response : (s.memWrite a v).response = s.response := rfl
@[simp] theorem memWrite_inputs : (s.memWrite a v).inputs = s.inputs := rfl
@[simp] theorem memWrite_delivered : (s.memWrite a v).delivered = s.delivered := rfl
@[simp] theorem memWrite_freeCount : (s.memWrite a v).freeCount = s.freeCount := rfl

@[simp] theorem respond_addrW : (s.respond st n).addrW = s.addrW := rfl
@[simp] theorem respond_denied : (s.respond st n).denied = s.denied := rfl
@[simp] theorem respond_mem : (s.respond st n).mem = s.mem := rfl
@[simp] theorem respond_stuck : (s.respond st n).stuck = s.stuck := rfl
@[simp] theorem respond_inFlight : (s.respond st n).inFlight = none := rfl
@[simp] theorem respond_response : (s.respond st n).response = some { status := st, length := n } := rfl
@[simp] theorem respond_inputs : (s.respond st n).inputs = s.inputs := rfl
@[simp] theorem respond_delivered : (s.respond st n).delivered = s.delivered := rfl
@[simp] theorem respond_freeCount : (s.respond st n).freeCount = s.freeCount := rfl

/-- An error is the response `(code, 0)` and nothing else. -/
theorem raise_eq_respond : s.raise st = s.respond st 0 := rfl

@[simp] theorem raise_addrW : (s.raise st).addrW = s.addrW := rfl
@[simp] theorem raise_denied : (s.raise st).denied = s.denied := rfl
@[simp] theorem raise_mem : (s.raise st).mem = s.mem := rfl
@[simp] theorem raise_stuck : (s.raise st).stuck = s.stuck := rfl
@[simp] theorem raise_inFlight : (s.raise st).inFlight = none := rfl
@[simp] theorem raise_response : (s.raise st).response = some { status := st, length := 0 } := rfl
@[simp] theorem raise_inputs : (s.raise st).inputs = s.inputs := rfl
@[simp] theorem raise_delivered : (s.raise st).delivered = s.delivered := rfl
@[simp] theorem raise_freeCount : (s.raise st).freeCount = s.freeCount := rfl

@[simp] theorem accept_addrW : (s.accept q).addrW = s.addrW := rfl
@[simp] theorem accept_denied : (s.accept q).denied = s.denied := rfl
@[simp] theorem accept_mem : (s.accept q).mem = s.mem := rfl
@[simp] theorem accept_stuck : (s.accept q).stuck = s.flying := rfl
@[simp] theorem accept_inFlight : (s.accept q).inFlight = some q := rfl
@[simp] theorem accept_response : (s.accept q).response = none := rfl
@[simp] theorem accept_inputs : (s.accept q).inputs = s.inputs := rfl
@[simp] theorem accept_delivered : (s.accept q).delivered = s.delivered := rfl
@[simp] theorem accept_freeCount : (s.accept q).freeCount = s.freeCount := rfl

/-- A waiting response goes to its requester. -/
@[simp] theorem deliver_of_some {r : Response} (h : s.response = some r) :
    s.deliver w = { s with response := none, delivered := s.delivered ++ [{ requester := w, response := r }] } := by
  simp [State.deliver, h]

/-- With no response waiting, nothing is delivered. -/
@[simp] theorem deliver_of_none (h : s.response = none) : s.deliver w = s := by
  simp [State.deliver, h]

@[simp] theorem deliver_addrW : (s.deliver w).addrW = s.addrW := by unfold State.deliver; split <;> rfl
@[simp] theorem deliver_denied : (s.deliver w).denied = s.denied := by unfold State.deliver; split <;> rfl
@[simp] theorem deliver_mem : (s.deliver w).mem = s.mem := by unfold State.deliver; split <;> rfl
@[simp] theorem deliver_stuck : (s.deliver w).stuck = s.stuck := by unfold State.deliver; split <;> rfl
@[simp] theorem deliver_inFlight : (s.deliver w).inFlight = s.inFlight := by unfold State.deliver; split <;> rfl
@[simp] theorem deliver_inputs : (s.deliver w).inputs = s.inputs := by unfold State.deliver; split <;> rfl
@[simp] theorem deliver_freeCount : (s.deliver w).freeCount = s.freeCount := by unfold State.deliver; split <;> rfl
@[simp] theorem deliver_response : (s.deliver w).response = none := by
  unfold State.deliver; split
  · rfl
  · assumption

@[simp] theorem busAccess_addrW (b : BusAccess) : (busAccess s b).addrW = s.addrW := by cases b <;> rfl
@[simp] theorem busAccess_denied (b : BusAccess) : (busAccess s b).denied = s.denied := by cases b <;> rfl
@[simp] theorem busAccess_stuck (b : BusAccess) : (busAccess s b).stuck = s.stuck := by cases b <;> rfl
@[simp] theorem busAccess_inFlight (b : BusAccess) : (busAccess s b).inFlight = s.inFlight := by cases b <;> rfl
@[simp] theorem busAccess_response (b : BusAccess) : (busAccess s b).response = s.response := by cases b <;> rfl
@[simp] theorem busAccess_inputs (b : BusAccess) : (busAccess s b).inputs = s.inputs := by cases b <;> rfl
@[simp] theorem busAccess_delivered (b : BusAccess) : (busAccess s b).delivered = s.delivered := by cases b <;> rfl
@[simp] theorem busAccess_freeCount (b : BusAccess) : (busAccess s b).freeCount = s.freeCount := by cases b <;> rfl

/-- Accesses of other agents change memory alone. -/
theorem busAccesses_eq (bs : List BusAccess) : busAccesses s bs = { s with mem := (busAccesses s bs).mem } := by
  induction bs generalizing s with
  | nil => rfl
  | cons b bs ih =>
    rw [show busAccesses s (b :: bs) = busAccesses (busAccess s b) bs from rfl, ih]
    cases b <;> rfl

@[simp] theorem busAccesses_addrW (bs : List BusAccess) : (busAccesses s bs).addrW = s.addrW := by rw [busAccesses_eq]
@[simp] theorem busAccesses_denied (bs : List BusAccess) : (busAccesses s bs).denied = s.denied := by rw [busAccesses_eq]
@[simp] theorem busAccesses_stuck (bs : List BusAccess) : (busAccesses s bs).stuck = s.stuck := by rw [busAccesses_eq]
@[simp] theorem busAccesses_inFlight (bs : List BusAccess) : (busAccesses s bs).inFlight = s.inFlight := by
  rw [busAccesses_eq]
@[simp] theorem busAccesses_response (bs : List BusAccess) : (busAccesses s bs).response = s.response := by
  rw [busAccesses_eq]
@[simp] theorem busAccesses_inputs (bs : List BusAccess) : (busAccesses s bs).inputs = s.inputs := by rw [busAccesses_eq]
@[simp] theorem busAccesses_delivered (bs : List BusAccess) : (busAccesses s bs).delivered = s.delivered := by
  rw [busAccesses_eq]
@[simp] theorem busAccesses_freeCount (bs : List BusAccess) : (busAccesses s bs).freeCount = s.freeCount := by
  rw [busAccesses_eq]

variable (f : Footprint) (i : Instr)

@[simp] theorem openByte_addrW : (s.openByte a).addrW = s.addrW := rfl
@[simp] theorem openByte_denied : (s.openByte a).denied = s.denied := rfl
@[simp] theorem openByte_stuck : (s.openByte a).stuck = s.stuck := rfl
@[simp] theorem openByte_inFlight : (s.openByte a).inFlight = s.inFlight := rfl
@[simp] theorem openByte_response : (s.openByte a).response = s.response := rfl
@[simp] theorem openByte_inputs : (s.openByte a).inputs = s.inputs := rfl
@[simp] theorem openByte_delivered : (s.openByte a).delivered = s.delivered := rfl
@[simp] theorem openByte_mem : (s.openByte a).mem = s.mem.write a (Config.openByte s.freeCount a) := rfl
@[simp] theorem openByte_freeCount : (s.openByte a).freeCount = s.freeCount + 1 := rfl

@[simp] theorem openRegion_addrW : (s.openRegion f).addrW = s.addrW := rfl
@[simp] theorem openRegion_denied : (s.openRegion f).denied = s.denied := rfl
@[simp] theorem openRegion_stuck : (s.openRegion f).stuck = s.stuck := rfl
@[simp] theorem openRegion_inFlight : (s.openRegion f).inFlight = s.inFlight := rfl
@[simp] theorem openRegion_response : (s.openRegion f).response = s.response := rfl
@[simp] theorem openRegion_inputs : (s.openRegion f).inputs = s.inputs := rfl
@[simp] theorem openRegion_delivered : (s.openRegion f).delivered = s.delivered := rfl
@[simp] theorem openRegion_mem : (s.openRegion f).mem = s.mem.writeAll f.dst (freeBytes s.freeCount f.dst f.size) := rfl
@[simp] theorem openRegion_freeCount : (s.openRegion f).freeCount = s.freeCount + 1 := rfl

@[simp] theorem openResult_addrW : (s.openResult f).addrW = (s.openRegion f).addrW := rfl
@[simp] theorem openResult_denied : (s.openResult f).denied = (s.openRegion f).denied := rfl
@[simp] theorem openResult_mem : (s.openResult f).mem = (s.openRegion f).mem := rfl
@[simp] theorem openResult_inputs : (s.openResult f).inputs = (s.openRegion f).inputs := rfl
@[simp] theorem openResult_delivered : (s.openResult f).delivered = (s.openRegion f).delivered := rfl
@[simp] theorem openResult_freeCount : (s.openResult f).freeCount = (s.openRegion f).freeCount := rfl
@[simp] theorem openResult_stuck : (s.openResult f).stuck = s.stuck := rfl
@[simp] theorem openResult_inFlight : (s.openResult f).inFlight = none := rfl

/-- Nothing is in flight exactly if no request is being performed and none is stuck. -/
theorem flying_eq_nil_iff : s.flying = [] ↔ s.inFlight = none ∧ s.stuck = [] := by
  cases h : s.inFlight <;> simp [State.flying, h]

/-- With no request being performed, the stuck ones are all that is in flight. -/
theorem flying_of_none (h : s.inFlight = none) : s.flying = s.stuck := by simp [State.flying, h]

/-- A request that is accepted is in flight beside what was. -/
@[simp] theorem flying_accept : (s.accept q).flying = s.flying ++ [q.instr] := by
  simp [State.flying, State.accept, State.park]

@[simp] theorem flying_park : s.park.flying = s.flying := by simp [State.flying, State.park]
@[simp] theorem park_addrW : s.park.addrW = s.addrW := rfl
@[simp] theorem park_denied : s.park.denied = s.denied := rfl
@[simp] theorem park_inFlight : s.park.inFlight = none := rfl
@[simp] theorem park_stuck : s.park.stuck = s.flying := rfl
@[simp] theorem park_response : s.park.response = s.response := rfl
@[simp] theorem park_inputs : s.park.inputs = s.inputs := rfl
@[simp] theorem park_delivered : s.park.delivered = s.delivered := rfl
@[simp] theorem park_mem : s.park.mem = s.mem := rfl
@[simp] theorem park_freeCount : s.park.freeCount = s.freeCount := rfl

/-- Opening bytes one after the other changes memory and the counter alone. -/
theorem openBytes_eq (as : List Nat) :
    as.foldl State.openByte s
      = { s with mem := (as.foldl State.openByte s).mem, freeCount := (as.foldl State.openByte s).freeCount } := by
  induction as generalizing s with
  | nil => rfl
  | cons a as ih => rw [List.foldl_cons, ih]; rfl

/-- Opening the bytes of broken duties is opening bytes one after the other. -/
theorem scramble_eq_openBytes (is : List Instr) (d : List BusAccess) :
    scramble is d s
      = ((d.filter (fun b => is.any (fun i => disturbs i b))).map BusAccess.addr).foldl State.openByte s := by
  rw [scramble, List.foldl_map]

/-- Opening the bytes of broken duties changes memory and the counter alone. -/
theorem scramble_eq (is : List Instr) (d : List BusAccess) :
    scramble is d s = { s with mem := (scramble is d s).mem, freeCount := (scramble is d s).freeCount } := by
  rw [scramble_eq_openBytes]; exact openBytes_eq s _

@[simp] theorem scramble_addrW (is : List Instr) (d : List BusAccess) : (scramble is d s).addrW = s.addrW := by
  rw [scramble_eq]
@[simp] theorem scramble_denied (is : List Instr) (d : List BusAccess) : (scramble is d s).denied = s.denied := by
  rw [scramble_eq]
@[simp] theorem scramble_inFlight (is : List Instr) (d : List BusAccess) : (scramble is d s).inFlight = s.inFlight := by
  rw [scramble_eq]
@[simp] theorem scramble_stuck (is : List Instr) (d : List BusAccess) : (scramble is d s).stuck = s.stuck := by
  rw [scramble_eq]
@[simp] theorem scramble_response (is : List Instr) (d : List BusAccess) : (scramble is d s).response = s.response := by
  rw [scramble_eq]
@[simp] theorem scramble_inputs (is : List Instr) (d : List BusAccess) : (scramble is d s).inputs = s.inputs := by
  rw [scramble_eq]
@[simp] theorem scramble_delivered (is : List Instr) (d : List BusAccess) : (scramble is d s).delivered = s.delivered := by
  rw [scramble_eq]
@[simp] theorem scramble_flying (is : List Instr) (d : List BusAccess) : (scramble is d s).flying = s.flying := by
  simp [State.flying]

@[simp] theorem openWritable_addrW : (s.openWritable f).addrW = s.addrW := by rw [State.openWritable, openBytes_eq]
@[simp] theorem openWritable_denied : (s.openWritable f).denied = s.denied := by rw [State.openWritable, openBytes_eq]
@[simp] theorem openWritable_inFlight : (s.openWritable f).inFlight = s.inFlight := by rw [State.openWritable, openBytes_eq]
@[simp] theorem openWritable_stuck : (s.openWritable f).stuck = s.stuck := by rw [State.openWritable, openBytes_eq]
@[simp] theorem openWritable_response : (s.openWritable f).response = s.response := by rw [State.openWritable, openBytes_eq]
@[simp] theorem openWritable_inputs : (s.openWritable f).inputs = s.inputs := by rw [State.openWritable, openBytes_eq]
@[simp] theorem openWritable_delivered : (s.openWritable f).delivered = s.delivered := by rw [State.openWritable, openBytes_eq]
@[simp] theorem openWritable_flying : (s.openWritable f).flying = s.flying := by simp [State.flying]

@[simp] theorem writePart_addrW : (s.writePart i f).addrW = s.addrW := rfl
@[simp] theorem writePart_denied : (s.writePart i f).denied = s.denied := rfl
@[simp] theorem writePart_inFlight : (s.writePart i f).inFlight = s.inFlight := rfl
@[simp] theorem writePart_stuck : (s.writePart i f).stuck = s.stuck := rfl
@[simp] theorem writePart_response : (s.writePart i f).response = s.response := rfl
@[simp] theorem writePart_inputs : (s.writePart i f).inputs = s.inputs := rfl
@[simp] theorem writePart_delivered : (s.writePart i f).delivered = s.delivered := rfl
@[simp] theorem writePart_freeCount : (s.writePart i f).freeCount = s.freeCount + 1 := rfl
@[simp] theorem writePart_flying : (s.writePart i f).flying = s.flying := rfl
@[simp] theorem writePart_mem : (s.writePart i f).mem
    = s.mem.writeSome f.dst (packetOf i (s.mem.readAll f.src f.n)) (s.writtenBytes i f.size) := rfl

@[simp] theorem getStuck_addrW (d : List BusAccess) : (getStuck i d s).addrW = s.addrW := by
  unfold getStuck; split <;> (try split) <;> simp
@[simp] theorem getStuck_denied (d : List BusAccess) : (getStuck i d s).denied = s.denied := by
  unfold getStuck; split <;> (try split) <;> simp
@[simp] theorem getStuck_response (d : List BusAccess) : (getStuck i d s).response = s.response := by
  unfold getStuck; split <;> (try split) <;> simp
@[simp] theorem getStuck_inputs (d : List BusAccess) : (getStuck i d s).inputs = s.inputs := by
  unfold getStuck; split <;> (try split) <;> simp
@[simp] theorem getStuck_delivered (d : List BusAccess) : (getStuck i d s).delivered = s.delivered := by
  unfold getStuck; split <;> (try split) <;> simp
@[simp] theorem getStuck_inFlight (d : List BusAccess) : (getStuck i d s).inFlight = none := by
  unfold getStuck; split <;> (try split) <;> simp
@[simp] theorem getStuck_stuck (d : List BusAccess) : (getStuck i d s).stuck = s.flying := by
  unfold getStuck; split <;> (try split) <;> simp

@[simp] theorem settle_addrW (is : List Instr) (d : List BusAccess) : (settle i is d s).addrW = s.addrW := by
  unfold settle; split <;> (try split) <;> simp
@[simp] theorem settle_denied (is : List Instr) (d : List BusAccess) : (settle i is d s).denied = s.denied := by
  unfold settle; split <;> (try split) <;> simp
@[simp] theorem settle_stuck (is : List Instr) (d : List BusAccess) : (settle i is d s).stuck = s.stuck := by
  unfold settle; split <;> (try split) <;> simp
@[simp] theorem settle_inputs (is : List Instr) (d : List BusAccess) : (settle i is d s).inputs = s.inputs := by
  unfold settle; split <;> (try split) <;> simp
@[simp] theorem settle_delivered (is : List Instr) (d : List BusAccess) : (settle i is d s).delivered = s.delivered := by
  unfold settle; split <;> (try split) <;> simp

@[simp] theorem abandon_addrW : (abandon s i).addrW = s.addrW := by unfold abandon; split <;> rfl
@[simp] theorem abandon_denied : (abandon s i).denied = s.denied := by unfold abandon; split <;> rfl
@[simp] theorem abandon_inputs : (abandon s i).inputs = s.inputs := by unfold abandon; split <;> rfl
@[simp] theorem abandon_delivered : (abandon s i).delivered = s.delivered := by unfold abandon; split <;> rfl

/-- Abandoning several operations changes neither the parameters nor the ports. -/
theorem abandons_keep (is : List Instr) :
    (is.foldl abandon s).addrW = s.addrW ∧ (is.foldl abandon s).denied = s.denied ∧
      (is.foldl abandon s).inputs = s.inputs ∧ (is.foldl abandon s).delivered = s.delivered := by
  induction is generalizing s with
  | nil => exact ⟨rfl, rfl, rfl, rfl⟩
  | cons i is ih => simpa using ih (abandon s i)

@[simp] theorem resetBlock_addrW : (resetBlock s).addrW = s.addrW := (abandons_keep s _).1
@[simp] theorem resetBlock_denied : (resetBlock s).denied = s.denied := (abandons_keep s _).2.1
@[simp] theorem resetBlock_inputs : (resetBlock s).inputs = s.inputs := (abandons_keep s _).2.2.1
@[simp] theorem resetBlock_delivered : (resetBlock s).delivered = s.delivered := (abandons_keep s _).2.2.2
@[simp] theorem resetBlock_response : (resetBlock s).response = none := rfl
@[simp] theorem resetBlock_inFlight : (resetBlock s).inFlight = none := rfl
@[simp] theorem resetBlock_stuck : (resetBlock s).stuck = [] := rfl
@[simp] theorem resetBlock_freeCount : (resetBlock s).freeCount = (s.flying.foldl abandon s).freeCount := rfl

/-- Memory after a reset: each operation in flight abandoned. -/
theorem resetBlock_mem : (resetBlock s).mem = (s.flying.foldl abandon s).mem := rfl

/-- With nothing in flight a reset only takes back a waiting response. -/
theorem resetBlock_of_idle (h : s.flying = []) : resetBlock s = { s with response := none } := by
  obtain ⟨h1, h2⟩ := (flying_eq_nil_iff s).1 h
  obtain ⟨_, _, _, _, _, _, _, _, _⟩ := s
  subst h1 h2
  rfl

end Sys2Proof.Machine
end

