-- ==== Sys2Proof/Laws/Regions.lean ====
section
/-! SUPPORT. What reading and writing a region can do, and what one transaction can do: the lemmas the provers cite in
place of unfolding `readRegion`, `writeRegion` and `transact`. -/

namespace Sys2Proof.Machine

/-- An address lies in the source region exactly if it is one of its `n` bytes. -/
theorem inSrc_iff (f : Footprint) (a : Nat) : f.inSrc a = true ↔ f.src ≤ a ∧ a < f.src + f.n :=
  decide_eq_true_iff

/-- An address lies in the destination region exactly if it is one of its `size` bytes. -/
theorem inDst_iff (f : Footprint) (a : Nat) : f.inDst a = true ↔ f.dst ≤ a ∧ a < f.dst + f.size :=
  decide_eq_true_iff

/-- An access intrudes exactly if it touches the buffer behind the packet. -/
theorem intrudes_iff (f : Footprint) (cap : Word) (b : BusAccess) :
    b.intrudes f cap = true ↔ f.dst + f.size ≤ b.addr ∧ b.addr < f.dst + cap.toNat :=
  decide_eq_true_iff

/-- Admission depends on the parameters alone. -/
theorem admits_congr {s t : State} (h1 : s.addrW = t.addrW) (h2 : s.denied = t.denied) (k : AccessKind) (a : Nat) :
    s.admits k a = t.admits k a := by
  simp [State.admits, h1, h2]

@[simp] theorem admits_memWrite (s : State) (a : Nat) (v : Byte) (k : AccessKind) (b : Nat) :
    (s.memWrite a v).admits k b = s.admits k b := rfl

/-- An admitted address lies in the address space. -/
theorem lt_of_admits {s : State} {k : AccessKind} {a : Nat} (h : s.admits k a = true) : a < 2 ^ s.addrW := by
  simp only [State.admits, Bool.and_eq_true, decide_eq_true_eq] at h
  exact h.1

/-- A region whose every read is admitted reads as the bytes memory holds. -/
theorem readRegion_of_admitted {s : State} {a : Nat} {n : Nat}
    (h : ∀ b, a ≤ b → b < a + n → s.admits .read b = true) : readRegion s a n = .ok (s.mem.readAll a n) := by
  induction n generalizing a with
  | zero => rfl
  | succ n ih =>
    have h1 := h a (by omega) (by omega)
    have h2 := ih (a := a + 1) fun b hb hb' => h b (by omega) (by omega)
    simp [readRegion, Memory.readAll, h1, h2]

/-- Where reading a region answers bytes, every read was admitted and they are the bytes memory holds. -/
theorem readRegion_eq_ok {s : State} {a : Nat} {n : Nat} {p : List Byte} (h : readRegion s a n = .ok p) :
    p = s.mem.readAll a n ∧ ∀ b, a ≤ b → b < a + n → s.admits .read b = true := by
  induction n generalizing a p with
  | zero => simp [readRegion, Memory.readAll] at h ⊢; exact ⟨h, fun b h1 h2 => by omega⟩
  | succ n ih =>
    simp only [readRegion] at h
    split at h
    · rename_i ha
      split at h
      · rename_i bs hbs
        obtain ⟨rfl, hall⟩ := ih hbs
        simp only [Except.ok.injEq] at h
        refine ⟨h.symm, fun b h1 h2 => ?_⟩
        by_cases hb : b = a
        · subst hb; exact ha
        · exact hall b (by omega) (by omega)
      · simp at h
    · simp at h

/-- Where reading a region stops, it stops at its first address whose read is not admitted. -/
theorem readRegion_eq_error {s : State} {a e : Nat} {n : Nat} (h : readRegion s a n = .error e) :
    a ≤ e ∧ e < a + n ∧ s.admits .read e = false ∧ ∀ b, a ≤ b → b < e → s.admits .read b = true := by
  induction n generalizing a with
  | zero => simp [readRegion] at h
  | succ n ih =>
    simp only [readRegion] at h
    split at h
    · rename_i ha
      split at h
      · simp at h
      · rename_i e' he
        simp only [Except.error.injEq] at h
        subst h
        obtain ⟨h1, h2, h3, h4⟩ := ih he
        refine ⟨by omega, by omega, h3, fun b hb hb' => ?_⟩
        by_cases hba : b = a
        · subst hba; exact ha
        · exact h4 b (by omega) hb'
    · rename_i ha
      simp only [Except.error.injEq] at h
      subst h
      exact ⟨by omega, by omega, by simpa using ha, fun b h1 h2 => by omega⟩

/-- A region whose every write is admitted is written whole, and nothing but memory changes. -/
theorem writeRegion_of_admitted {s : State} {a : Nat} {bs : List Byte}
    (h : ∀ b, a ≤ b → b < a + bs.length → s.admits .write b = true) :
    writeRegion s a bs = .ok { s with mem := s.mem.writeAll a bs } := by
  induction bs generalizing s a with
  | nil => rfl
  | cons v bs ih =>
    simp only [List.length_cons] at h
    have h1 := h a (by omega) (by omega)
    have h2 := ih (s := s.memWrite a v) (a := a + 1) fun b hb hb' => by
      rw [admits_memWrite]; exact h b (by omega) (by omega)
    simp only [writeRegion, h1, if_true, h2]
    rfl

/-- Where writing a region answers a state, every write was admitted and memory alone changed. -/
theorem writeRegion_eq_ok {s s' : State} {a : Nat} {bs : List Byte} (h : writeRegion s a bs = .ok s') :
    s' = { s with mem := s.mem.writeAll a bs } ∧ ∀ b, a ≤ b → b < a + bs.length → s.admits .write b = true := by
  induction bs generalizing s a with
  | nil => simp [writeRegion] at h; exact ⟨h.symm, fun b h1 h2 => by simp at h2; omega⟩
  | cons v bs ih =>
    simp only [writeRegion] at h
    split at h
    · rename_i ha
      obtain ⟨rfl, hall⟩ := ih h
      refine ⟨rfl, fun b h1 h2 => ?_⟩
      by_cases hb : b = a
      · subst hb; exact ha
      · rw [← admits_memWrite s a v]; simp only [List.length_cons] at h2; exact hall b (by omega) (by omega)
    · simp at h

/-- Where writing a region stops, it stops at the first address whose write is not admitted, the bytes before it
written. -/
theorem writeRegion_eq_error {s left : State} {a e : Nat} {bs : List Byte}
    (h : writeRegion s a bs = .error (e, left)) :
    ∃ k, k < bs.length ∧ e = a + k ∧ s.admits .write e = false ∧
      (∀ b, a ≤ b → b < e → s.admits .write b = true) ∧ left = { s with mem := s.mem.writeAll a (bs.take k) } := by
  induction bs generalizing s a with
  | nil => simp [writeRegion] at h
  | cons v bs ih =>
    simp only [writeRegion] at h
    split at h
    · rename_i ha
      obtain ⟨k, hk, rfl, h3, h4, rfl⟩ := ih h
      refine ⟨k + 1, by simpa using hk, by omega, by simpa using h3, fun b hb hb' => ?_, rfl⟩
      by_cases hba : b = a
      · subst hba; exact ha
      · rw [← admits_memWrite s a v]; exact h4 b (by omega) hb'
    · rename_i ha
      simp only [Except.error.injEq, Prod.mk.injEq] at h
      obtain ⟨rfl, rfl⟩ := h
      exact ⟨0, by simp, rfl, by simpa using ha, fun b h1 h2 => by omega, rfl⟩

/-- The check of R30 is the two conditions of R30. -/
theorem refusal_eq_none_iff {w : Nat} {f : Footprint} : f.refusal w = none ↔ f.Defined w := by
  unfold Footprint.refusal Footprint.overlaps Footprint.passesTop Footprint.Defined
  constructor
  · intro h
    simp only [decide_eq_true_eq] at h
    split at h
    · simp at h
    · split at h
      · simp at h
      · rename_i h1 h2
        exact ⟨fun a => by omega, by omega, by omega⟩
  · rintro ⟨h1, h2, h3⟩
    have h4 : ¬ (0 < f.n ∧ 0 < f.size ∧ f.src < f.dst + f.size ∧ f.dst < f.src + f.n) := by
      rintro ⟨ha, hb, hc, hd⟩
      exact h1 (max f.src f.dst) (le_max_left _ _) (by omega) (by omega)
    have h5 : ¬ (2 ^ w < f.dst + f.size ∨ 2 ^ w < f.src + f.n) := by omega
    simp [h4, h5]

/-- A platform that denies nothing admits every access inside the address space. -/
theorem admitted_of_no_denials {s : State} {f : Footprint} (h : s.denied = []) (hd : f.Defined s.addrW) :
    f.Admitted s := by
  refine ⟨fun a _ h2 => ?_, fun a _ h2 => ?_⟩ <;> simp [State.admits, h] <;> have := hd.2 <;> omega

/-- The state a transaction leaves when it answers: the packet at the destination region, the response `(OK, size)`. -/
def transacted (f : Footprint) (packet : List Byte → List Byte) (s : State) : State :=
  State.respond { s with mem := s.mem.writeAll f.dst (packet (s.mem.readAll f.src f.n)) } .ok (BitVec.ofNat 32 f.size)

/-- A transaction with defined regions and every access admitted answers. -/
theorem transact_of_clear {f : Footprint} {packet : List Byte → List Byte} {s : State}
    (hlen : (packet (s.mem.readAll f.src f.n)).length = f.size) (hd : f.Defined s.addrW) (ha : f.Admitted s) :
    transact f packet s = .next (transacted f packet s) := by
  have hw := writeRegion_of_admitted (s := s) (a := f.dst) (bs := packet (s.mem.readAll f.src f.n))
    (fun b h1 h2 => ha.2 b h1 (by omega))
  simp only [transact, refusal_eq_none_iff.2 hd, readRegion_of_admitted ha.1, hw, transacted]

/-- Everything a transaction can do when it answers. -/
theorem transact_next {f : Footprint} {packet : List Byte → List Byte} {s s' : State}
    (hlen : (packet (s.mem.readAll f.src f.n)).length = f.size) (h : transact f packet s = .next s') :
    f.Defined s.addrW ∧ f.Admitted s ∧ s' = transacted f packet s := by
  unfold transact at h
  split at h
  · simp at h
  · rename_i hr
    split at h
    · simp at h
    · rename_i p hp
      obtain ⟨rfl, hreads⟩ := readRegion_eq_ok hp
      split at h
      · simp at h
      · rename_i t ht
        obtain ⟨rfl, hwrites⟩ := writeRegion_eq_ok ht
        simp only [Host.Outcome.next.injEq] at h
        exact ⟨refusal_eq_none_iff.1 hr, ⟨hreads, fun a h1 h2 => hwrites a h1 (by omega)⟩, h.symm⟩

end Sys2Proof.Machine
end

