-- ==== Sys2Proof/Laws/Exec.lean ====
section
/-! SUPPORT. The packets' lengths, and everything `exec` can do: an argument error is raised, or the transaction of the
request's regions runs. -/

namespace Sys2Proof.Machine

@[simp] theorem length_withEcc (a b c : Byte) : (withEcc a b c).length = 4 := rfl

@[simp] theorem length_shortPacket (vc ct : Byte) (p : List Byte) : (shortPacket vc ct p).length = 4 := rfl

@[simp] theorem length_littleEndian (v : Half) : (littleEndian v).length = 2 := rfl

@[simp] theorem length_longPacket (vc ct : Byte) (len : Word) (p : List Byte) :
    (longPacket vc ct len p).length = 4 + p.length + 2 := by
  simp [longPacket, Nat.add_assoc]

/-- A request that fails an argument check has no regions, and one that passes them all has. -/
theorem footprint_eq_none_iff {i : Instr} : footprint i = none ↔ ∃ e, argError i = some e := by
  unfold footprint
  cases h : argError i <;> cases i <;> simp

/-- A request passes every argument check exactly if it is accepted in the words of R101 to R104. -/
theorem argError_eq_none_iff {i : Instr} : argError i = none ↔ Accepted i := by
  cases i <;>
    simp only [argError, shortError, longError, longSize, Config.vcMax, Config.lenMaxLong, Config.shortSize, Accepted,
      LengthValid, packetSize, Instr.vc, Instr.op, Instr.len,
      Instr.cap, if_true, if_false, Bool.false_eq_true]
  all_goals
    constructor
    · intro h
      split at h
      · simp at h
      · split at h
        · simp at h
        · split at h
          · simp at h
          · omega
    · intro h
      rw [if_neg (by omega), if_neg (by omega), if_neg (by omega)]

/-- The regions of an accepted request are those of its operands. -/
theorem footprint_of_accepted {i : Instr} (h : Accepted i) : footprint i = some (regionsOf i) := by
  have hn := argError_eq_none_iff.2 h
  cases i <;> simp [footprint, hn, regionsOf, packetSize, shortFootprint, longFootprint, Instr.src, Instr.dst,
    Instr.len, Instr.op]

/-- A request has regions exactly if it is accepted, and then those of its operands. -/
theorem footprint_eq_some {i : Instr} {f : Footprint} (h : footprint i = some f) : Accepted i ∧ f = regionsOf i := by
  have ha : Accepted i := by
    refine argError_eq_none_iff.1 ?_
    cases he : argError i with
    | none => rfl
    | some e => simp [footprint, he] at h
  rw [footprint_of_accepted ha] at h
  exact ⟨ha, by simpa using h.symm⟩

/-- A request that is not accepted has an argument error, and it is not `OK`. -/
theorem argError_of_not_accepted {i : Instr} (h : ¬ Accepted i) : ∃ e, argError i = some e ∧ e ≠ .ok := by
  cases he : argError i with
  | none => exact absurd (argError_eq_none_iff.1 he) h
  | some e =>
    refine ⟨e, rfl, ?_⟩
    rintro rfl
    cases i <;> simp only [argError, shortError, longError] at he <;> (repeat' split at he) <;> simp at he

/-- The packet fills the destination region. -/
theorem length_packetOf {i : Instr} {f : Footprint} (h : footprint i = some f) (m : Memory) :
    (packetOf i (m.readAll f.src f.n)).length = f.size := by
  unfold footprint at h
  split at h
  · simp at h
  · cases i <;> simp only [Option.some.injEq] at h <;> subst h <;>
      simp [packetOf, shortFootprint, longFootprint, Config.shortSize, longSize]

/-- A request that fails an argument check raises its error, and that is all. -/
theorem exec_of_argError {i : Instr} {e : Status} (h : argError i = some e) (s : State) :
    exec i s = .next (s.raise e) := by
  cases i <;> simp only [argError] at h <;> simp [exec, execEncodeShort, execEncodeLong, h]

/-- A request that passes every argument check performs the transaction of its regions. -/
theorem exec_of_footprint {i : Instr} {f : Footprint} (h : footprint i = some f) (s : State) :
    exec i s = transact f (packetOf i) s := by
  have hn : argError i = none := by
    cases he : argError i with
    | none => rfl
    | some e => simp [footprint, he] at h
  cases i <;> simp only [footprint, hn, Option.some.injEq] at h <;> subst h <;> simp only [argError] at hn <;>
    simp [exec, execEncodeShort, execEncodeLong, hn, packetOf]

/-- Everything a request can do when it answers: it raises an argument error, or its regions have a result, the platform
admits its accesses, and the packet and the response are there. -/
theorem exec_next {i : Instr} {s s' : State} (h : exec i s = .next s') :
    (∃ e, argError i = some e ∧ s' = s.raise e) ∨
      ∃ f, footprint i = some f ∧ f.Defined s.addrW ∧ f.Admitted s ∧ s' = transacted f (packetOf i) s := by
  cases hf : footprint i with
  | none =>
    obtain ⟨e, he⟩ := footprint_eq_none_iff.1 hf
    rw [exec_of_argError he] at h
    simp only [Host.Outcome.next.injEq] at h
    exact .inl ⟨e, he, h.symm⟩
  | some f =>
    rw [exec_of_footprint hf] at h
    obtain ⟨h1, h2, h3⟩ := transact_next (length_packetOf hf s.mem) h
    exact .inr ⟨f, rfl, h1, h2, h3⟩

/-- An answered request presents a response and is no longer in flight; the ports and the parameters are as before. -/
theorem exec_next_fields {i : Instr} {s s' : State} (h : exec i s = .next s') :
    s'.addrW = s.addrW ∧ s'.denied = s.denied ∧ s'.inputs = s.inputs ∧ s'.delivered = s.delivered ∧
      s'.freeCount = s.freeCount ∧ s'.inFlight = none ∧ ∃ r, s'.response = some r := by
  rcases exec_next h with ⟨e, -, rfl⟩ | ⟨f, -, -, -, rfl⟩
  · exact ⟨rfl, rfl, rfl, rfl, rfl, rfl, _, rfl⟩
  · exact ⟨rfl, rfl, rfl, rfl, rfl, rfl, _, rfl⟩

/-- An answered request leaves the stuck ones as they are. -/
theorem exec_next_stuck {i : Instr} {s s' : State} (h : exec i s = .next s') : s'.stuck = s.stuck := by
  rcases exec_next h with ⟨e, -, rfl⟩ | ⟨f, -, -, -, rfl⟩ <;> rfl

/-- Everything a request can do when it faults: it has regions with a result, an access of it is not admitted, and the fault
names a stuck access. -/
theorem exec_fault {i : Instr} {s : State} {r : Fault} (h : exec i s = .fault r) :
    ∃ f, footprint i = some f ∧ f.Defined s.addrW ∧ ¬ f.Admitted s ∧
      ∃ a left, r = .stuckRead a left ∨ r = .stuckWrite a left := by
  cases hf : footprint i with
  | none =>
    obtain ⟨e, he⟩ := footprint_eq_none_iff.1 hf
    rw [exec_of_argError he] at h
    simp at h
  | some f =>
    rw [exec_of_footprint hf] at h
    refine ⟨f, rfl, ?_, fun ha => ?_, ?_⟩
    · unfold transact at h
      split at h
      · simp at h
      · rename_i hr
        exact refusal_eq_none_iff.1 hr
    · by_cases hd : f.Defined s.addrW
      · rw [transact_of_clear (length_packetOf hf s.mem) hd ha] at h
        simp at h
      · unfold transact at h
        split at h
        · simp at h
        · rename_i hr
          exact hd (refusal_eq_none_iff.1 hr)
    · unfold transact at h
      split at h
      · simp at h
      · split at h
        · exact ⟨_, s, .inl (by simpa using h.symm)⟩
        · split at h
          · exact ⟨_, _, .inr (by simpa using h.symm)⟩
          · simp at h

end Sys2Proof.Machine
end

