-- ==== Sys2Proof/Laws/PerInstr.lean ====
section
/-! SUPPORT. Families of statements about each operation as syntax. -/

namespace Sys2Proof.Laws

/-- What the encoder writes in the reserved bits `CMD[7:1]` and `CMD[31:24]` (spec/30_encoding.md R47): zero. -/
def ReservedZero.Statement (i : Instr) : Prop := (encode i).cmd &&& 0xFF0000FE = 0

theorem encodeCmd_reserved (op : Bool) (vc ct : Byte) : encodeCmd op vc ct &&& 0xFF0000FE = 0 := by
  ext k hk
  simp only [encodeCmd, BitVec.getElem_and, BitVec.getElem_or, BitVec.getElem_shiftLeft, BitVec.getElem_setWidth]
  interval_cases k <;> simp

theorem ReservedZero.encodeShort (dst : Nat) (cap : Word) (vc ct : Byte) (src : Nat) (len : Word) :
    ReservedZero.Statement (.encodeShort dst cap vc ct src len) := encodeCmd_reserved _ _ _

theorem ReservedZero.encodeLong (dst : Nat) (cap : Word) (vc ct : Byte) (src : Nat) (len : Word) :
    ReservedZero.Statement (.encodeLong dst cap vc ct src len) := encodeCmd_reserved _ _ _

end Sys2Proof.Laws
end

