-- ==== Sys2Proof/Laws/Port.lean ====
section
/-! SUPPORT. Everything presenting a request, an access of another agent, a reset and a step can do. -/

namespace Sys2Proof.Machine

/-- One access breaks a duty exactly if it is among those that do. -/
theorem undisturbed_iff {i : Instr} {d : List BusAccess} :
    undisturbed i d = true ↔ ∀ b ∈ d, disturbs i b = false := by
  unfold undisturbed disturbs raced intruded
  cases footprint i <;> simp [imp_and, forall_and]

/-- The duties of the spec's words are those the machine asks about. -/
theorem disturbs_iff {i : Instr} {b : BusAccess} : disturbs i b = true ↔ BreaksDuty i b := by
  by_cases ha : Accepted i
  · have hc := ha.2.2
    rw [BreaksDuty, and_iff_right ha]
    simp only [disturbs, raced, intruded, footprint_of_accepted ha, List.any_cons, List.any_nil, Bool.or_false,
      Bool.or_eq_true, intrudes_iff]
    cases b with
    | read a =>
      simp only [BusAccess.conflicts, inDst_iff, regionsOf, BusAccess.addr, reduceCtorEq, false_and, exists_false, false_or]
      omega
    | write a v =>
      simp only [BusAccess.conflicts, Bool.or_eq_true, inSrc_iff, inDst_iff, regionsOf, BusAccess.addr, BusAccess.write.injEq]
      constructor
      · rintro ((h | h) | h)
        · exact .inl ⟨a, v, ⟨rfl, rfl⟩, h⟩
        · exact .inr (by omega)
        · exact .inr (by omega)
      · rintro (⟨_, _, ⟨rfl, rfl⟩, h⟩ | h)
        · exact .inl (.inl h)
        · omega
  · have hf : footprint i = none := footprint_eq_none_iff.2 ((argError_of_not_accepted ha).imp fun _ h => h.1)
    simp [disturbs, raced, intruded, hf, BreaksDuty, ha]

/-- A byte is touched exactly where one of the accesses that break a duty touches it. -/
theorem touchedAt_iff {is : List Instr} {d : List BusAccess} {a : Nat} :
    TouchedAt is d a ↔ ∃ b ∈ d, b.addr = a ∧ ∃ i ∈ is, disturbs i b = true := by
  simp only [TouchedAt, disturbs_iff]

/-- With no access there is no broken duty. -/
@[simp] theorem undisturbed_nil (i : Instr) : undisturbed i [] = true := undisturbed_iff.2 (by simp)

/-- What decoding answers is the request's operation, its addresses in range. -/
theorem decode_eq_ok {w : Nat} {q : Request} {i : Instr} (h : decode w q = .ok i) :
    i = q.instr ∧ q.src < 2 ^ w ∧ q.dst < 2 ^ w := by
  unfold decode fitsAddr at h
  split at h
  · simp at h
  · rename_i h1
    split at h
    · simp at h
    · rename_i h2
      simp only [Except.ok.injEq] at h
      exact ⟨h.symm, by simpa using h1, by simpa using h2⟩

/-- A request whose addresses are in range decodes. -/
theorem decode_of_wf {w : Nat} {q : Request} (h : q.wf w = true) : decode w q = .ok q.instr := by
  simp only [Request.wf, Bool.and_eq_true] at h
  simp [decode, h.1, h.2]

/-- Where every duty is kept towards each operation in flight, nothing is opened. -/
theorem scramble_of_undisturbed {is : List Instr} {d : List BusAccess} (h : ∀ i ∈ is, undisturbed i d = true) (s : State) :
    scramble is d s = s := by
  have : d.filter (fun b => is.any (fun i => disturbs i b)) = [] :=
    List.filter_eq_nil_iff.2 fun b hb => by simpa using fun i hi => undisturbed_iff.1 (h i hi) b hb
  simp [scramble, this]

/-- With nothing in flight, nothing is opened. -/
@[simp] theorem scramble_nil (d : List BusAccess) (s : State) : scramble [] d s = s := scramble_of_undisturbed (by simp) s

/-- Where no other agent does anything, nothing is opened. -/
@[simp] theorem scramble_none (is : List Instr) (s : State) : scramble is [] s = s := rfl

/-- Where every duty is kept, the request ends as the operation left it. -/
theorem settle_of_undisturbed {i : Instr} {is : List Instr} {d : List BusAccess} (hi : i ∈ is)
    (h : ∀ i ∈ is, undisturbed i d = true) (s : State) : settle i is d s = s := by
  have hn : intruded i d = false := by
    have h' := h i hi
    simp only [undisturbed, Bool.not_eq_true', Bool.or_eq_false_iff] at h'
    exact h'.2
  unfold settle
  rw [scramble_of_undisturbed h, hn]
  split <;> rfl

/-- Opening bytes inside the address space keeps memory canonical and inside it. -/
theorem openBytes_mem {as : List Nat} {s : State} (hm : s.mem.wf) (hb : ∀ c ∈ s.mem, c.1 < 2 ^ s.addrW)
    (ha : ∀ a ∈ as, a < 2 ^ s.addrW) :
    (as.foldl State.openByte s).mem.wf ∧ ∀ c ∈ (as.foldl State.openByte s).mem, c.1 < 2 ^ s.addrW := by
  induction as generalizing s with
  | nil => exact ⟨hm, hb⟩
  | cons a as ih =>
    refine ih (s := s.openByte a) (Memory.wf_write hm _ _) (fun c hc => ?_) fun x hx => ha x (by simp [hx])
    rcases Memory.mem_write hc with hc | ⟨rfl, -⟩
    · exact hb c hc
    · exact ha a (by simp)

/-- A byte that is not opened reads as before. -/
theorem read_openBytes_kept {as : List Nat} {a : Nat} (h : a ∉ as) (s : State) :
    (as.foldl State.openByte s).mem.read a = s.mem.read a := by
  induction as generalizing s with
  | nil => rfl
  | cons b as ih =>
    rw [List.foldl_cons, ih fun hx => h (by simp [hx])]
    exact Memory.read_write_ne fun hab => h (by simp [hab])

/-- An opened byte holds a free value. -/
theorem read_openBytes_open {as : List Nat} {a : Nat} {s : State} (hm : s.mem.wf)
    (h : a ∈ as ∨ ∃ n, s.mem.read a = Config.openByte n a) :
    ∃ n, (as.foldl State.openByte s).mem.read a = Config.openByte n a := by
  induction as generalizing s with
  | nil => simpa using h
  | cons b as ih =>
    refine ih (s := s.openByte b) (Memory.wf_write hm _ _) ?_
    by_cases hb : a = b
    · exact .inr ⟨s.freeCount, by rw [hb]; exact Memory.read_write_same hm _ _⟩
    · rcases h with h | ⟨n, h⟩
      · exact .inl (by simpa [hb] using h)
      · exact .inr ⟨n, by rw [← h]; exact Memory.read_write_ne hb⟩

/-- The counter of free values never falls. -/
theorem freeCount_le_openBytes (as : List Nat) (s : State) : s.freeCount ≤ (as.foldl State.openByte s).freeCount := by
  induction as generalizing s with
  | nil => exact le_rfl
  | cons a as ih => exact (Nat.le_succ _).trans (ih (s.openByte a))

/-- Opening the bytes of broken duties keeps memory canonical and inside the address space. -/
theorem scramble_mem {is : List Instr} {d : List BusAccess} {s : State} (hm : s.mem.wf)
    (hb : ∀ c ∈ s.mem, c.1 < 2 ^ s.addrW) (ho : firstOutside s.addrW d = none) :
    (scramble is d s).mem.wf ∧ ∀ c ∈ (scramble is d s).mem, c.1 < 2 ^ s.addrW := by
  rw [scramble_eq_openBytes]
  refine openBytes_mem hm hb fun a ha => ?_
  obtain ⟨b, hb', rfl⟩ := List.mem_map.1 ha
  simpa [fitsAddr] using (List.find?_eq_none.1 ho) b (List.mem_filter.1 hb').1

/-- A byte at which no duty was broken reads as before. -/
theorem read_scramble_kept {is : List Instr} {d : List BusAccess} {a : Nat} (h : ¬ TouchedAt is d a) (s : State) :
    (scramble is d s).mem.read a = s.mem.read a := by
  rw [scramble_eq_openBytes]
  refine read_openBytes_kept (fun ha => h (touchedAt_iff.2 ?_)) s
  obtain ⟨b, hb, rfl⟩ := List.mem_map.1 ha
  obtain ⟨hb, hi⟩ := List.mem_filter.1 hb
  exact ⟨b, hb, rfl, List.any_eq_true.1 hi⟩

/-- A byte at which a duty was broken holds a free value. -/
theorem read_scramble_open {is : List Instr} {d : List BusAccess} {a : Nat} {s : State} (hm : s.mem.wf)
    (h : TouchedAt is d a ∨ ∃ n, s.mem.read a = Config.openByte n a) :
    ∃ n, (scramble is d s).mem.read a = Config.openByte n a := by
  rw [scramble_eq_openBytes]
  refine read_openBytes_open hm (h.imp_left fun ht => ?_)
  obtain ⟨b, hb, rfl, hi⟩ := touchedAt_iff.1 ht
  exact List.mem_map.2 ⟨b, List.mem_filter.2 ⟨hb, List.any_eq_true.2 hi⟩, rfl⟩

/-- The counter of free values never falls. -/
theorem freeCount_le_scramble (is : List Instr) (d : List BusAccess) (s : State) :
    s.freeCount ≤ (scramble is d s).freeCount := by
  rw [scramble_eq_openBytes]; exact freeCount_le_openBytes _ s

/-- Everything a stuck request can have written: a byte of its packet that the platform lets it write and whose source bytes it
could read. -/
theorem mem_writtenBytes {s : State} {i : Instr} {size k : Nat} :
    k ∈ s.writtenBytes i size ↔ k < size ∧ s.admits .write (i.dst + k) = true ∧
      (∀ j, j < i.len.toNat → dependsOn i k j = true → s.admits .read (i.src + j) = true) ∧
      Config.wroteByte s.freeCount k = true := by
  simp only [State.writtenBytes, State.mayHaveWritten, List.mem_filter, List.mem_range, Bool.and_eq_true, List.all_eq_true,
    Bool.or_eq_true, Bool.not_eq_true', and_assoc]
  refine and_congr_right fun _ => and_congr_right fun _ => and_congr_left fun _ => forall_congr' fun j => ?_
  cases dependsOn i k j <;> simp

/-- A byte that a stuck request may not write, or that lies outside its destination region, reads as before; memory stays
canonical and inside the address space. -/
theorem getStuck_mem {i : Instr} {d : List BusAccess} {s : State} (hm : s.mem.wf) (hb : ∀ c ∈ s.mem, c.1 < 2 ^ s.addrW) :
    (getStuck i d s).mem.wf ∧ (∀ c ∈ (getStuck i d s).mem, c.1 < 2 ^ s.addrW) ∧
      ∀ a, (∀ f, footprint i = some f → f.inDst a = true → s.admits .write a = false) →
        (getStuck i d s).mem.read a = s.mem.read a := by
  unfold getStuck
  split
  · rename_i f hf
    have hno : ∀ a k, (∀ f, footprint i = some f → f.inDst a = true → s.admits .write a = false) → k < f.size →
        s.admits .write (f.dst + k) = true → a ≠ f.dst + k := by
      rintro _ k ha hk hw rfl
      have := ha f hf ((inDst_iff f _).2 ⟨by omega, by omega⟩)
      rw [hw] at this
      simp at this
    split
    · have h := openBytes_mem (as := ((List.range f.size).map (f.dst + ·)).filter (s.admits .write)) hm hb fun a ha =>
        lt_of_admits (List.mem_filter.1 ha).2
      refine ⟨h.1, h.2, fun a ha => read_openBytes_kept (fun hin => ?_) s⟩
      obtain ⟨h1, h2⟩ := List.mem_filter.1 hin
      obtain ⟨k, hk, rfl⟩ := List.mem_map.1 h1
      exact hno _ k ha (by simpa using hk) h2 rfl
    · have hd : i.dst = f.dst := by rw [(footprint_eq_some hf).2]; rfl
      refine ⟨Memory.wf_writeSome hm _ _ _, fun c hc => ?_, fun a ha => Memory.read_writeSome_kept (fun k hk => ?_) _ _⟩
      · rcases Memory.mem_writeSome hc with hc | ⟨k, hk, hc⟩
        · exact hb c hc
        · rw [hc, ← hd]; exact lt_of_admits (mem_writtenBytes.1 hk).2.1
      · obtain ⟨h1, h2, -⟩ := mem_writtenBytes.1 hk
        exact hno a k ha h1 (hd ▸ h2)
  · exact ⟨hm, hb, fun _ _ => rfl⟩

/-- Where the duties behind the packet are kept, a byte of a stuck request's packet is unwritten, or written by some order of
its accesses. -/
theorem read_getStuck {i : Instr} {d : List BusAccess} {f : Footprint} {s : State} (hf : footprint i = some f)
    (hd : intruded i d = false) (hm : s.mem.wf) (k : Nat) :
    (getStuck i d s).mem.read (f.dst + k) = s.mem.read (f.dst + k) ∨
      (s.admits .write (f.dst + k) = true ∧
        (∀ j, j < i.len.toNat → dependsOn i k j = true → s.admits .read (i.src + j) = true) ∧
        (getStuck i d s).mem.read (f.dst + k) = (packetOf i (s.mem.readAll f.src f.n)).getD k 0) := by
  have hdst : i.dst = f.dst := by rw [(footprint_eq_some hf).2]; rfl
  have he : (getStuck i d s).mem
      = s.mem.writeSome f.dst (packetOf i (s.mem.readAll f.src f.n)) (s.writtenBytes i f.size) := by
    simp [getStuck, hf, hd]
  rw [he]
  by_cases h : k ∈ s.writtenBytes i f.size
  · obtain ⟨-, h1, h2, -⟩ := mem_writtenBytes.1 h
    exact .inr ⟨hdst ▸ h1, h2, Memory.read_writeSome_written hm _ _ (.inl h)⟩
  · refine .inl (Memory.read_writeSome_kept (fun j hj hjk => h ?_) _ _)
    rwa [Nat.add_left_cancel hjk]

/-- Where another agent touched the buffer behind the packet, a byte a stuck request may write is open. -/
theorem read_getStuck_open {i : Instr} {d : List BusAccess} {f : Footprint} {s : State} (hf : footprint i = some f)
    (hd : intruded i d = true) (hm : s.mem.wf) {a : Nat} (ha : f.inDst a = true) (hw : s.admits .write a = true) :
    ∃ n, (getStuck i d s).mem.read a = Config.openByte n a := by
  have h := (inDst_iff f a).1 ha
  simp only [getStuck, hf, hd, if_true]
  exact read_openBytes_open hm (.inl (List.mem_filter.2 ⟨List.mem_map.2 ⟨a - f.dst, by simp; omega, by omega⟩, hw⟩))

/-- The counter of free values never falls. -/
theorem freeCount_le_getStuck (i : Instr) (d : List BusAccess) (s : State) : s.freeCount ≤ (getStuck i d s).freeCount := by
  unfold getStuck
  split
  · split
    · exact freeCount_le_openBytes _ s
    · exact Nat.le_succ _
  · exact le_rfl

/-- Everything settling a request can do to what it leaves in flight and as its response: the response stays, or it is an
open one of R18. -/
theorem settle_response {i : Instr} (is : List Instr) (d : List BusAccess) {s : State} (h : s.inFlight = none) :
    (settle i is d s).inFlight = none ∧
      ((settle i is d s).response = s.response ∨
        ∃ f st, footprint i = some f ∧ intruded i d = true ∧
          (settle i is d s).response = some ⟨st, if st = .ok then BitVec.ofNat 32 f.size else 0⟩) := by
  unfold settle
  split
  · rename_i f hf
    split
    · rename_i hi
      exact ⟨by simp, .inr ⟨f, _, hf, hi, by rw [scramble_response]; rfl⟩⟩
    · exact ⟨by simpa using h, .inl (by simp)⟩
  · exact ⟨by simpa using h, .inl (by simp)⟩

/-- The state in which an operation is performed: the request in flight beside the stuck ones, other agents' accesses done,
and the bytes of broken duties open. -/
theorem present_next {q : Request} {during : List BusAccess} {s s' : State}
    {k : Instr → State → Host.Outcome State Fault Refusal} (h : present q during s k = .next s') :
    decode s.addrW q = .ok q.instr ∧ firstOutside s.addrW during = none ∧
      k q.instr (scramble (s.flying ++ [q.instr]) during ((busAccesses s during).accept q)) = .next s' := by
  unfold present at h
  split at h
  · simp at h
  · rename_i i hi
    obtain ⟨rfl, -, -⟩ := decode_eq_ok hi
    split at h
    · simp at h
    · rename_i ho
      refine ⟨hi, ho, ?_⟩
      simpa [State.flying] using h

/-- Everything performing a request can do when it answers: the operation answers, and its response is delivered; or it
meets an access that is not admitted, and is stuck. -/
theorem performRequest_next {w : Nat} {q : Request} {during : List BusAccess} {s s' : State}
    (h : performRequest w q during s = .next s') :
    decode s.addrW q = .ok q.instr ∧ firstOutside s.addrW during = none ∧
      ∃ u, u = scramble (s.flying ++ [q.instr]) during ((busAccesses s during).accept q) ∧
        u.flying = s.flying ++ [q.instr] ∧
        ((∃ t, exec q.instr u = .next t ∧ s' = (settle q.instr u.flying during t).deliver w) ∨
          (∃ r, exec q.instr u = .fault r ∧ s' = scramble u.flying during (getStuck q.instr during u))) := by
  obtain ⟨h1, h2, h3⟩ := present_next h
  refine ⟨h1, h2, _, rfl, by simp [State.flying], ?_⟩
  split at h3
  · rename_i t ht
    exact .inl ⟨t, ht, by simpa using h3.symm⟩
  · rename_i ht
    exact .inr ⟨_, ht, by simpa using h3.symm⟩
  · rename_i ht
    exact .inr ⟨_, ht, by simpa using h3.symm⟩
  · simp at h3
  · simp at h3

/-- Everything a request cut by a reset can do when it answers. -/
theorem cutRequest_next {q : Request} {during : List BusAccess} {s s' : State} (h : cutRequest q during s = .next s') :
    decode s.addrW q = .ok q.instr ∧ firstOutside s.addrW during = none ∧
      (∀ f, footprint q.instr = some f → f.Defined s.addrW) ∧
      ∃ u, u = scramble (s.flying ++ [q.instr]) during ((busAccesses s during).accept q) ∧
        u.flying = s.flying ++ [q.instr] ∧ s' = scramble u.flying during (resetBlock u) := by
  obtain ⟨h1, h2, h3⟩ := present_next h
  split at h3
  · simp at h3
  · rename_i hn
    refine ⟨h1, h2, fun f hf => ?_, _, rfl, by simp [State.flying], by simpa using h3.symm⟩
    rw [hf, Option.bind_some] at hn
    simpa using refusal_eq_none_iff.1 hn

/-- Everything an access of another agent can do when it answers. -/
theorem busInput_next {a : BusAccess} {s s' : State} (h : busInput a s = .next s') :
    a.addr < 2 ^ s.addrW ∧ s' = scramble s.flying [a] (busAccess s a) := by
  unfold busInput fitsAddr at h
  split at h
  · rename_i ha
    simp only [Host.Outcome.next.injEq] at h
    exact ⟨by simpa using ha, h.symm⟩
  · simp at h

/-- What accesses inside the address space leave in memory: canonical if it was, and no cell outside. -/
theorem busAccesses_mem_keeps {s : State} {bs : List BusAccess} (hm : s.mem.wf) (hb : ∀ c ∈ s.mem, c.1 < 2 ^ s.addrW)
    (ho : firstOutside s.addrW bs = none) :
    (busAccesses s bs).mem.wf ∧ ∀ c ∈ (busAccesses s bs).mem, c.1 < 2 ^ s.addrW := by
  induction bs generalizing s with
  | nil => exact ⟨hm, hb⟩
  | cons b bs ih =>
    have hc : busAccesses s (b :: bs) = busAccesses (busAccess s b) bs := rfl
    have h1 : b.addr < 2 ^ s.addrW := by simpa [fitsAddr] using (List.find?_eq_none.1 ho) b (by simp)
    have h2 : firstOutside s.addrW bs = none :=
      List.find?_eq_none.2 fun x hx => (List.find?_eq_none.1 ho) x (by simp [hx])
    rw [hc, ← busAccess_addrW s b]
    cases b with
    | read a => exact ih hm hb h2
    | write a v =>
      refine ih (s := s.memWrite a v) (Memory.wf_write hm a v) (fun c hc => ?_) h2
      rcases Memory.mem_write hc with hc | ⟨rfl, -⟩
      · exact hb c hc
      · exact h1

/-- Abandoning operations whose regions are inside the address space keeps memory canonical and inside it. -/
theorem abandons_mem {is : List Instr} {s : State} (hm : s.mem.wf) (hb : ∀ c ∈ s.mem, c.1 < 2 ^ s.addrW)
    (hd : ∀ i ∈ is, ∀ f, footprint i = some f → f.Defined s.addrW) :
    (is.foldl abandon s).mem.wf ∧ ∀ c ∈ (is.foldl abandon s).mem, c.1 < 2 ^ s.addrW := by
  induction is generalizing s with
  | nil => exact ⟨hm, hb⟩
  | cons i is ih =>
    have hw : (abandon s i).mem.wf ∧ ∀ c ∈ (abandon s i).mem, c.1 < 2 ^ s.addrW := by
      unfold abandon
      split
      · rename_i f hf
        refine ⟨Memory.wf_writeAll hm _ _, fun c hc => ?_⟩
        rcases Memory.mem_writeAll hc with hc | hc
        · exact hb c hc
        · have := (hd i (by simp) f hf).2.1
          simp only [freeBytes, List.length_map, List.length_range] at hc
          omega
      · exact ⟨hm, hb⟩
    simpa using ih (s := abandon s i) hw.1 (by simpa using hw.2) fun j hj f hf => by
      simpa using hd j (by simp [hj]) f hf

/-- A byte outside the destination regions of abandoned operations reads as before. -/
theorem read_abandons_kept {is : List Instr} {a : Nat}
    (h : ∀ i ∈ is, ∀ f, footprint i = some f → f.inDst a = false) (s : State) :
    (is.foldl abandon s).mem.read a = s.mem.read a := by
  induction is generalizing s with
  | nil => rfl
  | cons i is ih =>
    rw [List.foldl_cons, ih fun j hj => h j (by simp [hj])]
    unfold abandon
    split
    · rename_i f hf
      have hn : ¬ (f.dst ≤ a ∧ a < f.dst + f.size) := fun hx => by
        have := (inDst_iff f a).2 hx
        rw [h i (by simp) f hf] at this
        simp at this
      refine Memory.read_writeAll_outside ?_
      simp only [freeBytes, List.length_map, List.length_range]
      omega
    · rfl

/-- Abandoning operations keeps memory canonical. -/
theorem wf_abandons {is : List Instr} {s : State} (hm : s.mem.wf) : (is.foldl abandon s).mem.wf := by
  induction is generalizing s with
  | nil => exact hm
  | cons i is ih =>
    refine ih (s := abandon s i) ?_
    unfold abandon
    split
    · exact Memory.wf_writeAll hm _ _
    · exact hm

/-- Each byte of the destination regions of abandoned operations holds a free value. -/
theorem read_abandons_open {is : List Instr} {s : State} {a : Nat} (hm : s.mem.wf)
    (h : (∃ i ∈ is, ∃ f, footprint i = some f ∧ f.inDst a = true) ∨ ∃ n, s.mem.read a = Config.openByte n a) :
    ∃ n, (is.foldl abandon s).mem.read a = Config.openByte n a := by
  induction is generalizing s with
  | nil => simpa using h
  | cons i is ih =>
    refine ih (s := abandon s i) (wf_abandons (is := [i]) hm) ?_
    by_cases hi : ∃ f, footprint i = some f ∧ f.inDst a = true
    · obtain ⟨f, hf, ha⟩ := hi
      have h := (inDst_iff f a).1 ha
      have hk : a - f.dst < (freeBytes s.freeCount f.dst f.size).length := by simp [freeBytes]; omega
      refine .inr ⟨s.freeCount, ?_⟩
      have hr := Memory.read_writeAll_inside hm (a := f.dst) hk
      rw [show f.dst + (a - f.dst) = a by omega] at hr
      simp only [abandon, hf, openRegion_mem, hr]
      simp [freeBytes, show f.dst + (a - f.dst) = a by omega]
    · rcases h with ⟨j, hj, f, hf, ha⟩ | ⟨n, hn⟩
      · rcases List.mem_cons.1 hj with rfl | hj
        · exact absurd ⟨f, hf, ha⟩ hi
        · exact .inl ⟨j, hj, f, hf, ha⟩
      · refine .inr ⟨n, ?_⟩
        rw [← hn]
        refine read_abandons_kept (is := [i]) (fun j hj f hf => ?_) s
        rw [List.mem_singleton.1 hj] at hf
        by_contra hc
        exact hi ⟨f, hf, by simpa using hc⟩

/-- Everything a step can do when it answers. -/
theorem step_next {s s' : State} (h : step s = .next s') :
    (s.inputs = [] ∧ s' = s) ∨
    (∃ w q during rest, s.inputs = .request w q during :: rest ∧
      performRequest w q during { s with inputs := rest } = .next s') ∨
    (∃ q during rest, s.inputs = .requestCutByReset q during :: rest ∧
      cutRequest q during { s with inputs := rest } = .next s') ∨
    (∃ rest, s.inputs = .reset :: rest ∧ s' = resetBlock { s with inputs := rest }) ∨
    (∃ a rest, s.inputs = .bus a :: rest ∧ a.addr < 2 ^ s.addrW ∧
      s' = scramble s.flying [a] (busAccess { s with inputs := rest } a)) := by
  unfold step nextArrival at h
  split at h
  · rename_i h2
    exact .inl ⟨h2, by simpa using h.symm⟩
  · rename_i input rest h2
    cases input with
    | request w q during => exact .inr (.inl ⟨w, q, during, rest, h2, h⟩)
    | requestCutByReset q during => exact .inr (.inr (.inl ⟨q, during, rest, h2, h⟩))
    | reset => exact .inr (.inr (.inr (.inl ⟨rest, h2, by simpa [takeInput] using h.symm⟩)))
    | bus a =>
      obtain ⟨h3, h4⟩ := busInput_next h
      exact .inr (.inr (.inr (.inr ⟨a, rest, h2, h3, h4⟩)))

end Sys2Proof.Machine
end

