-- ==== Sys2Proof/Tests/Slice0.lean ====
section
/-! SUPPORT. Tests with expected results from spec/95_test_vectors.md, the smoke test of WellFormed, and one witness for the
hypotheses of each statement. -/

namespace Sys2Proof.Tests

open Sys2Proof Sys2Proof.Machine

/-- A block on a platform of 16 address bits that admits every access. -/
def st (mem : Memory) (inputs : List Input) : State := { State.resetOn 16 [] mem with inputs := inputs }

/-- The same on a platform that denies one range. -/
def stDenied (base size : Nat) (kind : AccessKind) : State := State.resetOn 16 [{ base, size, kind }] []

/-- The next state, if there is one. -/
def nextOf : Host.Outcome State Fault Refusal → Option State
  | .next s => some s
  | .fault _ => none
  | .refused _ => none

/-! ## WellFormed: every check refuses an ill-formed term -/

theorem test_wf_instr_accepts : Instr.wf 16 (.encodeShort 65535 4 0 5 65535 1) = true := by decide
theorem test_wf_instr_src : Instr.wf 16 (.encodeShort 0 4 0 5 65536 1) = false := by decide
theorem test_wf_instr_dst : Instr.wf 16 (.encodeLong 65536 4 0 5 0 1) = false := by decide
theorem test_wf_request_src : Request.wf 16 { cmd := 0, len := 0, cap := 0, src := 65536, dst := 0 } = false := by decide
theorem test_wf_request_dst : Request.wf 16 { cmd := 0, len := 0, cap := 0, src := 0, dst := 65536 } = false := by decide
theorem test_decode_refuses_src_by_name :
    (match decode 16 { cmd := 0, len := 0, cap := 0, src := 65536, dst := 0 } with
      | .error e => some e
      | .ok _ => none) = some .srcTooWide := by decide
theorem test_decode_refuses_dst_by_name :
    (match decode 16 { cmd := 0, len := 0, cap := 0, src := 0, dst := 65536 } with
      | .error e => some e
      | .ok _ => none) = some .dstTooWide := by decide

/-! ## Decoding: words written out from the layout of R41, `reserved ++ ct ++ vc ++ reserved ++ op` -/

/-- Row S6: `CMD = 0x00150200`. -/
theorem test_decode_short_bits :
    (Request.mk (0x00#8 ++ 0x15#8 ++ 0x02#8 ++ 0b0000000#7 ++ 0b0#1) 2 4 0x2000 0x1000).instr
      = .encodeShort 0x1000 4 0x02 0x15 0x2000 2 := by decide

/-- Row L5, every reserved bit set (R47). -/
theorem test_decode_long_bits :
    (Request.mk (0xFF#8 ++ 0x29#8 ++ 0x03#8 ++ 0b1111111#7 ++ 0b1#1) 3 9 0x2000 0x1000).instr
      = .encodeLong 0x1000 9 0x03 0x29 0x2000 3 := by decide

/-- R53: the words of row L6. -/
theorem test_encode_long_word :
    encode (.encodeLong 0x1000 10 1 0x39 0x2000 4)
      = { cmd := 0x00390101, len := 4, cap := 10, src := 0x2000, dst := 0x1000 } := by decide

/-- R53, P4: an assembler line with decimal and hexadecimal operands. -/
theorem test_assemble_line :
    assemble "ENCODE_LONG 0x8000, 72, 0, 0x39, 0x7000, 64".toList
      = some (.encodeLong 0x8000 72 0 0x39 0x7000 64) := by decide

theorem test_assemble_refuses_wide_operand :
    assemble "ENCODE_SHORT 0, 4, 256, 5, 0, 1".toList = none := by decide

/-! ## The operations: two steps each, on rows of 95_test_vectors.md -/

/-- Row S2 (source Scenario 2). -/
theorem test_short_scenario2 :
    (nextOf (step (st [(0x2000, 0xBC), (0x2001, 0x4E)]
        [.request 7 { cmd := 0x00150000, len := 2, cap := 4, src := 0x2000, dst := 0x1000 } []]))).map
      (fun t => (t.mem.readAll 0x1000 5, t.delivered))
      = some ([0x15, 0xBC, 0x4E, 0x35, 0x00], [{ requester := 7, response := { status := .ok, length := 4 } }]) := by
  decide

/-- Row S18: every check fails, the channel is reported. -/
theorem test_short_priority :
    (nextOf (step (st [] [.request 0 { cmd := 0x00050700, len := 0, cap := 0, src := 0x2000, dst := 0x1000 } []]))).map
      (fun t => (t.mem, t.delivered))
      = some ([], [{ requester := 0, response := { status := .invalidChannel, length := 0 } }]) := by decide

/-- Row L5: a payload byte of 0x00, the blank byte of memory, among them. -/
theorem test_long_row_l5 :
    (nextOf (step (st [(0x2001, 0x01), (0x2002, 0x02)]
        [.request 0 { cmd := 0x00290301, len := 3, cap := 9, src := 0x2000, dst := 0x1000 } []]))).map
      (fun t => (t.mem.readAll 0x1000 9, t.delivered))
      = some ([0xE9, 0x03, 0x00, 0x15, 0x00, 0x01, 0x02, 0xF9, 0x03],
          [{ requester := 0, response := { status := .ok, length := 9 } }]) := by decide

/-- Row L7: capacity one below the size. -/
theorem test_long_row_l7 :
    (nextOf (step (st [(0x2000, 0xB9)]
        [.request 0 { cmd := 0x00390101, len := 4, cap := 9, src := 0x2000, dst := 0x1000 } []]))).map
      (fun t => (t.mem, t.delivered))
      = some ([(0x2000, 0xB9)], [{ requester := 0, response := { status := .bufferTooSmall, length := 0 } }]) := by decide

/-! ## Witnesses: a concrete state and operands meeting all hypotheses of each statement -/

/-- An accepted short request, at the largest valid channel and the smallest capacity. -/
def shortI : Instr := .encodeShort 0x1000 4 3 0x05 0x2000 2

/-- An accepted long request, its capacity exactly the size. -/
def longI : Instr := .encodeLong 0x1000 8 0 0x39 0x2000 2

/-- A request that fails the capacity check by one byte. -/
def failingI : Instr := .encodeLong 0x1000 7 0 0x39 0x2000 2

/-- P5's request: the regions share bytes. -/
def overlapI : Instr := .encodeLong 0x9002 16 0 0x39 0x9000 4

/-- An accepted short request that ends exactly one byte past the top of 16 address bits. -/
def pastTopI : Instr := .encodeShort 0xFFFD 4 0 0x05 0x2000 1

def mem0 : Memory := [(0x2000, 0x11), (0x2001, 0x29)]
def s0 : State := st mem0 []
def shortQ : Request := encode shortI
def longQ : Request := encode longI
def failingQ : Request := encode failingI

/-- Regions with a result, from the check the model makes. -/
theorem defined_of {w : Nat} {f : Footprint} (h : f.refusal w = none) : f.Defined w := refusal_eq_none_iff.1 h

theorem s0_answers (i : Instr) (h : ∀ f, footprint i = some f → f.refusal s0.addrW = none) : Answerable s0 i :=
  fun f hf => ⟨defined_of (h f hf), admitted_of_no_denials rfl (defined_of (h f hf))⟩

theorem witness_EveryCommandWordDecodesByItsFields :
    shortQ.src < 2 ^ 16 ∧ shortQ.dst < 2 ^ 16 ∧ shortQ.cmd.toNat % 2 = 0 ∧ longQ.cmd.toNat % 2 = 1 := by decide

theorem witness_DecodeOfEncodeGivesInstruction :
    Instr.wf 16 (.encodeShort 65535 4 255 255 65535 0xFFFFFFFF) = true ∧ longI.wf 14 = true := by decide

theorem witness_EncodeOfDecodeClearsReservedBits :
    ∃ i, decode 16 { shortQ with cmd := 0xFF0503FE } = .ok i := ⟨shortI, by rfl⟩

theorem witness_ReservedBitsDoNotMatter :
    shortQ.cmd &&& 0x00FFFF01 = (0xFF0503FE : Word) &&& 0x00FFFF01 := by decide

theorem witness_CommandTypeIsNotCheckedAndItsHighBitsDrop :
    (∃ t, exec (.encodeShort 0x1000 4 3 0x05 0x2000 2) s0 = .next t) ∧
      (∃ t, exec (.encodeLong 0x1000 8 0 0x39 0x2000 2) s0 = .next t) ∧
      (0x05 : Byte).toNat % 64 = (0xC5 : Byte).toNat % 64 := ⟨⟨_, rfl⟩, ⟨_, rfl⟩, by decide⟩

theorem witness_EnoughCapacityIsAllTheSame :
    4 ≤ (4 : Word).toNat ∧ 4 ≤ (0xFFFFFFFF : Word).toNat ∧ 4 + (2 : Word).toNat + 2 ≤ (8 : Word).toNat ∧
      4 + (2 : Word).toNat + 2 ≤ (72 : Word).toNat := by decide

theorem witness_DataIdentifierJoinsChannelAndType : (3 : Byte).toNat ≤ 3 := by decide

theorem witness_CanonicalMemoriesReadingAlikeAreEqual :
    mem0.wf ∧ (mem0.write 0x2001 0x29).wf ∧ ∀ a, mem0.read a = (mem0.write 0x2001 0x29).read a :=
  ⟨by decide, by decide, fun a => by rw [show mem0.write 0x2001 0x29 = mem0 by decide]⟩

/-- Beside a stuck request: an access at the last byte of its buffer, one right behind it, and one outside memory. -/
theorem witness_BusAccessTouchesItsByteOnly :
    let s : State := { s0 with stuck := [longI] }
    s.mem.wf ∧ (BusAccess.write 65535 1).addr < 2 ^ s.addrW ∧ 2 ^ s.addrW ≤ (BusAccess.write 65536 1).addr ∧
      (∃ i ∈ s.flying, BreaksDuty i (.read 0x1007)) ∧ (∃ i ∈ s.flying, BreaksDuty i (.write 0x2001 1)) ∧
      (∀ i ∈ s.flying, ¬ BreaksDuty i (.write 0x1008 1)) ∧ ∀ i ∈ s.flying, ¬ BreaksDuty i (.read 0x2001) := by
  simp only [← disturbs_iff]
  decide

/-- Clauses 1 to 3 of ENCODE_SHORT's rule at their boundary values: channels 4 and 3, lengths 0, 3 and 2, capacity 3. -/
theorem witness_EncodeShortFollowsItsPseudocode_errors :
    3 < (4 : Byte).toNat ∧ ((3 : Byte).toNat ≤ 3 ∧ (0 : Word) ≠ 1 ∧ (0 : Word) ≠ 2) ∧ ((3 : Word) ≠ 1 ∧ (3 : Word) ≠ 2) ∧
      ((2 : Word) = 1 ∨ (2 : Word) = 2) ∧ (3 : Word).toNat < 4 := by decide

/-- Clause 4: the last payload byte is the first destination byte. -/
theorem witness_EncodeShortFollowsItsPseudocode_overlap :
    (3 : Byte).toNat ≤ 3 ∧ ((2 : Word) = 1 ∨ (2 : Word) = 2) ∧ 4 ≤ (4 : Word).toNat ∧
      ∃ a, 0xFFF ≤ a ∧ a < 0xFFF + (2 : Word).toNat ∧ 0x1000 ≤ a ∧ a < 0x1000 + 4 :=
  ⟨by decide, by decide, by decide, 0x1000, by decide⟩

/-- Clause 5: a destination that ends at the top of the address space, right behind its payload. -/
theorem witness_EncodeShortFollowsItsPseudocode_answers :
    (3 : Byte).toNat ≤ 3 ∧ ((2 : Word) = 1 ∨ (2 : Word) = 2) ∧ 4 ≤ (4 : Word).toNat ∧
      Footprint.Defined s0.addrW { src := 0xFFFA, n := (2 : Word).toNat, dst := 0xFFFC, size := 4 } ∧
      Footprint.Admitted s0 { src := 0xFFFA, n := (2 : Word).toNat, dst := 0xFFFC, size := 4 } :=
  have h := defined_of (by decide)
  ⟨by decide, by decide, by decide, h, admitted_of_no_denials rfl h⟩

/-- Clause 6: the rule's example. -/
theorem witness_EncodeShortFollowsItsPseudocode_example :
    4 ≤ (4 : Word).toNat ∧ Footprint.Defined s0.addrW { src := 0x2000, n := (1 : Word).toNat, dst := 0x1000, size := 4 } ∧
      Footprint.Admitted s0 { src := 0x2000, n := (1 : Word).toNat, dst := 0x1000, size := 4 } ∧
      s0.mem.read 0x2000 = 0x11 :=
  have h := defined_of (by decide)
  ⟨by decide, h, admitted_of_no_denials rfl h, by decide⟩

/-- Clauses 1 to 3 of ENCODE_LONG's rule at their boundary values: channels 4 and 3, length 65536 and 65535, capacity
65540. -/
theorem witness_EncodeLongFollowsItsPseudocode_errors :
    3 < (4 : Byte).toNat ∧ ((3 : Byte).toNat ≤ 3 ∧ 65535 < (65536 : Word).toNat) ∧ (65535 : Word).toNat ≤ 65535 ∧
      (65540 : Word).toNat < 4 + (65535 : Word).toNat + 2 := by decide

/-- Clause 4: the last destination byte is the first payload byte. -/
theorem witness_EncodeLongFollowsItsPseudocode_overlap :
    (3 : Byte).toNat ≤ 3 ∧ (1 : Word).toNat ≤ 65535 ∧ 4 + (1 : Word).toNat + 2 ≤ (7 : Word).toNat ∧
      ∃ a, 0x1006 ≤ a ∧ a < 0x1006 + (1 : Word).toNat ∧ 0x1000 ≤ a ∧ a < 0x1000 + (4 + (1 : Word).toNat + 2) :=
  ⟨by decide, by decide, by decide, 0x1006, by decide⟩

/-- Clause 5 at both ends of its range: an empty payload, and 65535 bytes, on 32 address bits. -/
theorem witness_EncodeLongFollowsItsPseudocode_answers :
    (3 : Byte).toNat ≤ 3 ∧ ((0 : Word).toNat ≤ 65535 ∧ 4 + (0 : Word).toNat + 2 ≤ (6 : Word).toNat) ∧
      ((65535 : Word).toNat ≤ 65535 ∧ 4 + (65535 : Word).toNat + 2 ≤ (65541 : Word).toNat) ∧
      (Footprint.Defined State.reset.addrW { src := 0, n := (0 : Word).toNat, dst := 0x20000, size := 6 } ∧
        Footprint.Admitted State.reset { src := 0, n := (0 : Word).toNat, dst := 0x20000, size := 6 }) ∧
      Footprint.Defined State.reset.addrW { src := 0, n := (65535 : Word).toNat, dst := 0x20000, size := 65541 } ∧
      Footprint.Admitted State.reset { src := 0, n := (65535 : Word).toNat, dst := 0x20000, size := 65541 } :=
  have h := defined_of (by decide)
  have h' := defined_of (by decide)
  ⟨by decide, by decide, by decide, ⟨h, admitted_of_no_denials rfl h⟩, h', admitted_of_no_denials rfl h'⟩

set_option maxRecDepth 4000 in
theorem witness_GoldenLongPacketOfScenario3 :
    70 ≤ (70 : Word).toNat ∧
      Footprint.Defined (st (Memory.writeAll [] 0x7000 scenario3Payload) []).addrW
        { src := 0x7000, n := 64, dst := 0x8000, size := 70 } ∧
      Footprint.Admitted (st (Memory.writeAll [] 0x7000 scenario3Payload) [])
        { src := 0x7000, n := 64, dst := 0x8000, size := 70 } ∧
      (st (Memory.writeAll [] 0x7000 scenario3Payload) []).mem.readAll 0x7000 64 = scenario3Payload :=
  have h := defined_of (by decide)
  ⟨by decide, h, admitted_of_no_denials rfl h, by decide⟩

set_option maxRecDepth 4000 in
/-- Clause 6 of ENCODE_LONG's rule: a payload with the example's checksum, from the state of the witness above. -/
theorem witness_EncodeLongFollowsItsPseudocode_example :
    (64 : Word).toNat = 64 ∧ (payloadChecksum ((st (Memory.writeAll [] 0x7000 scenario3Payload) []).mem.readAll 0x7000 64)).toNat
      = 0x0365 :=
  ⟨by decide, by rw [witness_GoldenLongPacketOfScenario3.2.2.2]; decide⟩

theorem witness_EncodeFrame :
    (∃ t, exec shortI s0 = .next t) ∧ (∃ t, exec longI s0 = .next t) ∧ (∃ t, exec failingI s0 = .next t) ∧
      ¬ Accepted failingI ∧ footprint shortI = some (regionsOf shortI) ∧
      (regionsOf shortI).inDst 0x1004 = false ∧ (regionsOf shortI).inSrc 0x2001 = true :=
  ⟨⟨_, rfl⟩, ⟨_, rfl⟩, ⟨_, rfl⟩, by decide, by decide, by decide, by decide⟩

theorem witness_WrittenPacketsKeepThePacketInvariants :
    s0.mem.wf ∧ (∃ t, exec shortI s0 = .next t ∧ t.response = some ⟨.ok, 4⟩ ∧ shortI.op = false) ∧
      ∃ t, exec longI s0 = .next t ∧ t.response = some ⟨.ok, 8⟩ ∧ longI.op = true :=
  ⟨by decide, ⟨_, rfl, rfl, rfl⟩, _, rfl, rfl, rfl⟩

/-- Two states that agree on the payload and on little else. -/
theorem witness_PacketDependsOnRequestAndPayloadAlone :
    Answerable s0 longI ∧ Answerable { s0 with mem := (0x1000, 0xAA) :: mem0, freeCount := 5 } longI ∧ Accepted longI ∧
      s0.mem.wf ∧ Memory.wf ((0x1000, 0xAA) :: mem0) ∧
      ∀ k, k < longI.len.toNat → s0.mem.read (longI.src + k) = Memory.read ((0x1000, 0xAA) :: mem0) (longI.src + k) :=
  ⟨s0_answers _ (by decide),
    fun f hf => ⟨(s0_answers longI (by decide) f hf).1, admitted_of_no_denials rfl (s0_answers longI (by decide) f hf).1⟩,
    by decide, by decide, by decide, by decide⟩

theorem witness_ExecAnswersExactlyTheAnswerable : Answerable s0 shortI ∧ ∃ t, exec shortI s0 = .next t :=
  ⟨s0_answers _ (by decide), _, rfl⟩

theorem witness_UndefinedRegionsAreRefused :
    (Accepted overlapI ∧ ∃ a, overlapI.src ≤ a ∧ a < overlapI.src + overlapI.len.toNat ∧ overlapI.dst ≤ a ∧
      a < overlapI.dst + packetSize overlapI) ∧
    (Accepted pastTopI ∧ (∀ a, pastTopI.src ≤ a → a < pastTopI.src + pastTopI.len.toNat →
      ¬ (pastTopI.dst ≤ a ∧ a < pastTopI.dst + packetSize pastTopI)) ∧
      2 ^ s0.addrW < pastTopI.dst + packetSize pastTopI) ∧ ¬ Accepted failingI := by
  refine ⟨⟨by decide, 0x9003, by decide⟩, ⟨by decide, fun a _ h => ?_, by decide⟩, by decide⟩
  have h1 : a < 0x2001 := h
  rintro ⟨h2, -⟩
  have h3 : 0xFFFD ≤ a := h2
  omega

/-- The last source byte, and the last destination byte, denied by the platform. -/
theorem witness_StuckRequestGivesNoResponse :
    (∃ left, exec shortI (stDenied 0x2001 1 .read) = .fault (.stuckRead 0x2001 left)) ∧
      (∃ left, exec shortI (stDenied 0x1003 1 .write) = .fault (.stuckWrite 0x1003 left)) ∧
      (stDenied 0x1003 1 .write).mem.wf ∧ shortI.dst + 2 < 0x1003 ∧ Accepted shortI ∧
      (regionsOf shortI).Defined (stDenied 0x2001 1 .read).addrW ∧
      ¬ (regionsOf shortI).Admitted (stDenied 0x2001 1 .read) :=
  ⟨⟨_, rfl⟩, ⟨_, rfl⟩, by decide, by decide, by decide, defined_of (by decide),
    fun h => absurd (h.1 0x2001 (by decide) (by decide)) (by decide)⟩

theorem witness_EccMasksGiveTheParityEquations : (7 : Nat) < 8 := by decide

theorem witness_EccLocatesASingleFlippedBit : (0 : Nat) < 24 ∧ (23 : Nat) < 24 ∧ (7 : Nat) < 8 := by decide

theorem witness_ChecksumTableIsTheGeneratedOne : (255 : Nat) < 256 := by decide

/-- On a platform that admits no read; the empty source region begins at the very top of the address space. -/
theorem witness_EmptyPayloadPacket :
    (3 : Byte).toNat ≤ 3 ∧ 6 ≤ (6 : Word).toNat ∧ 65536 ≤ 2 ^ (stDenied 0 65536 .read).addrW ∧
      65530 + 6 ≤ 2 ^ (stDenied 0 65536 .read).addrW ∧
      ∀ a, 65530 ≤ a → a < 65530 + 6 → (stDenied 0 65536 .read).admits .write a = true := by
  refine ⟨by decide, by decide, by decide, by decide, fun a h1 h2 => ?_⟩
  interval_cases a <;> decide

theorem witness_ResponseStatusFollowsThePriority :
    (∃ t, exec shortI s0 = .next t) ∧ (∃ t, exec longI s0 = .next t) ∧
      ∃ t, exec (.encodeShort 0 0 7 0x05 0 0) s0 = .next t := ⟨⟨_, rfl⟩, ⟨_, rfl⟩, _, rfl⟩

theorem witness_FailingRequestTouchesNoMemory :
    ¬ Accepted failingI ∧ ¬ Accepted (.encodeShort 0 4 4 5 0 1) ∧ ¬ Accepted (.encodeShort 0 4 3 5 0 0) ∧
      ¬ Accepted (.encodeShort 0 4 3 5 0 3) ∧ ¬ Accepted (.encodeShort 0 3 3 5 0 1) ∧
      ¬ Accepted (.encodeLong 0 0xFFFFFFFF 3 5 0 65536) := by decide

/-- A block with this one arrival sequence. -/
def with1 (inputs : List Input) : State := st mem0 inputs

theorem witness_ErrorLeavesTheBlockReady :
    (with1 [.request 1 failingQ [], .request 2 failingQ []]).inFlight = none ∧
      (with1 [.request 1 failingQ [], .request 2 failingQ []]).response = none ∧
      failingQ.wf (with1 []).addrW = true ∧ ¬ Accepted failingQ.instr := by decide

/-- Accesses right before and right behind the buffer and a read of the source; and a failing request whose source is
written. -/
theorem witness_StepPerformsTheDecodedRequest :
    decode (with1 []).addrW shortQ = .ok shortI ∧
      (∀ j ∈ (with1 []).flying ++ [shortI], undisturbed j [.write 0xFFF 1, .write 0x1004 0xFF, .read 0x2001] = true) ∧
      (∀ a ∈ [BusAccess.write 0xFFF 1, .write 0x1004 0xFF, .read 0x2001], a.addr < 2 ^ (with1 []).addrW) ∧
      decode (with1 []).addrW failingQ = .ok failingI ∧
      (∀ j ∈ (with1 []).flying ++ [failingI], undisturbed j [.write 0x2000 1, .write 0x1000 1] = true) ∧
      ∀ a ∈ [BusAccess.write 0x2000 1, .write 0x1000 1], a.addr < 2 ^ (with1 []).addrW :=
  ⟨rfl, by decide, by decide, rfl, by decide, by decide⟩

/-- A state with nothing in flight meets the invariant if the rest of it does. -/
theorem inv_of {s : State} (h1 : 0 < s.addrW ∧ s.mem.wf ∧ ∀ c ∈ s.mem, c.1 < 2 ^ s.addrW)
    (h2 : s.inFlight = none ∧ s.response = none ∧ s.stuck = [] ∧ s.delivered = []) : Inv s :=
  ⟨h1.1, h1.2.1, h1.2.2, h2.1, h2.2.1, by simp [h2.2.2.1], by simp [h2.2.2.2]⟩

theorem inv_with1 (inputs : List Input) : Inv (with1 inputs) :=
  have h : 0 < 16 ∧ mem0.wf ∧ ∀ c ∈ mem0, c.1 < 2 ^ 16 := by decide
  inv_of h ⟨rfl, rfl, rfl, rfl⟩

theorem served_s0 {q : Request} (h1 : q.wf 16 = true) (h2 : ∀ f, footprint q.instr = some f → f.refusal 16 = none)
    {during : List BusAccess} (h3 : firstOutside 16 during = none) (inputs : List Input) :
    Served (with1 inputs) q during :=
  ⟨h1, h3, fun f hf => ⟨defined_of (h2 f hf), admitted_of_no_denials rfl (defined_of (h2 f hf))⟩⟩

/-- The three ways to race, each at the edge of its region. -/
def races : List BusAccess := [.write 0x2001 0, .write 0x1003 0, .read 0x1000]

/-- Each region's edges raced on, and the byte behind a stuck request's packet. -/
theorem witness_RacedBytesTakeEveryValue :
    Inv (with1 [.request 1 shortQ races]) ∧ Served (with1 [.request 1 shortQ races]) shortQ races ∧
      Accepted shortQ.instr ∧
      (∀ b ∈ races, ¬ (shortQ.dst + packetSize shortQ.instr ≤ b.addr ∧ b.addr < shortQ.dst + shortQ.cap.toNat)) ∧
      TouchedAt ((with1 []).flying ++ [shortQ.instr]) races 0x2001 ∧
      TouchedAt ((with1 []).flying ++ [shortQ.instr]) races 0x1003 ∧
      TouchedAt ((with1 []).flying ++ [shortQ.instr]) races 0x1000 ∧
      ¬ TouchedAt ((with1 []).flying ++ [shortQ.instr]) races 0x2000 ∧
      TouchedAt [.encodeShort 0x1005 8 0 5 0x4000 1, shortQ.instr] [.read 0x1009] 0x1009 := by
  refine ⟨inv_with1 _, served_s0 (by decide) (by decide) (by decide) _, ?_⟩
  simp only [touchedAt_iff]
  decide

/-- One byte of capacity behind the packet, and another agent that reads it. -/
theorem witness_BrokenOwnershipLeavesNoDefinedResult :
    Inv (with1 [.request 1 { shortQ with cap := 5 } [.read 0x1004]]) ∧
      Served (with1 [.request 1 { shortQ with cap := 5 } [.read 0x1004]]) { shortQ with cap := 5 } [.read 0x1004] ∧
      Accepted ({ shortQ with cap := 5 } : Request).instr ∧
      (∃ b ∈ [BusAccess.read 0x1004],
        shortQ.dst + packetSize ({ shortQ with cap := 5 } : Request).instr ≤ b.addr ∧
          b.addr < shortQ.dst + (5 : Word).toNat) ∧
      TouchedAt ((with1 []).flying ++ [({ shortQ with cap := 5 } : Request).instr]) [.read 0x1004] 0x1004 ∧
      ¬ TouchedAt ((with1 []).flying ++ [({ shortQ with cap := 5 } : Request).instr]) [.read 0x1004] 0x1005 := by
  refine ⟨inv_with1 _, served_s0 (by decide) (by decide) (by decide) _, ?_⟩
  simp only [touchedAt_iff]
  decide

/-- R29, R130: a raced request is answered. -/
theorem test_raced_request_answers :
    (nextOf (step (with1 [.request 1 shortQ races]))).map State.delivered
      = some [{ requester := 1, response := { status := .ok, length := 4 } }] := by rfl

theorem witness_EachRequestGetsExactlyOneResponse :
    (∃ t, step (with1 [.request 1 shortQ []]) = .next t) ∧ (∃ t, step (with1 [.reset]) = .next t) ∧
      ∀ w q during rest, (with1 [.reset]).inputs ≠ .request w q during :: rest :=
  ⟨⟨_, rfl⟩, ⟨_, rfl⟩, fun _ _ _ _ h => by simp [with1, st] at h⟩

theorem witness_RequesterDoesNotMatter :
    (∃ t, step { s0 with inputs := [.request 1 shortQ []] } = .next t) ∧
      ∃ t, step { stDenied 0x2001 1 .read with inputs := [.request 1 shortQ []] } = .next t := ⟨⟨_, rfl⟩, _, rfl⟩

theorem orderly_s0 {q : Request} (h1 : q.wf 16 = true) (h2 : ∀ f, footprint q.instr = some f → f.refusal 16 = none)
    (inputs : List Input) : Orderly (with1 inputs) q [] := ⟨served_s0 h1 h2 rfl inputs, undisturbed_nil _⟩

/-- A second request, which reads the same payload and writes right behind the first one's packet. -/
def behindI : Instr := .encodeLong 0x1004 8 1 0x39 0x2000 2
def behindQ : Request := encode behindI

theorem witness_DisjointRequestsCommute :
    Inv (with1 [.request 1 shortQ [], .request 2 behindQ []]) ∧
      Orderly (with1 [.request 1 shortQ [], .request 2 behindQ []]) shortQ [] ∧
      Orderly (with1 [.request 1 shortQ [], .request 2 behindQ []]) behindQ [] ∧
      ∀ f1 f2 a, footprint shortQ.instr = some f1 → footprint behindQ.instr = some f2 →
        (f1.inDst a = true → f2.inSrc a = false ∧ f2.inDst a = false) ∧ (f2.inDst a = true → f1.inSrc a = false) := by
  refine ⟨inv_with1 _, orderly_s0 (by decide) (by decide) _, orderly_s0 (by decide) (by decide) _, fun f1 f2 a h1 h2 => ?_⟩
  have e1 : footprint shortQ.instr = some ⟨0x2000, 2, 0x1000, 4⟩ := by decide
  have e2 : footprint behindQ.instr = some ⟨0x2000, 2, 0x1004, 8⟩ := by decide
  rw [e1, Option.some.injEq] at h1
  rw [e2, Option.some.injEq] at h2
  subst h1 h2
  simp only [Footprint.inDst, Footprint.inSrc, decide_eq_true_eq, decide_eq_false_iff_not]
  omega

/-- A request that meets a stuck access, a raced one, and a failing one whose source another agent writes. -/
def program : List (Nat × Request × List BusAccess) :=
  [(1, encode (.encodeShort 0x3000 4 0 5 0x4000 1), []), (2, shortQ, races), (3, failingQ, [.write 0x2000 1])]

/-- A block on a platform that denies reads at 0x4000. -/
def blocked (inputs : List Input) : State := { stDenied 0x4000 1 .read with inputs := inputs }

theorem witness_EveryRequestMeetingNoStuckAccessIsAnswered :
    (∀ x ∈ program, Presentable (blocked (program.map fun x => .request x.1 x.2.1 x.2.2)) x.2.1 x.2.2) ∧
      undisturbed failingQ.instr [.write 0x2000 1] = true := by
  refine ⟨fun x hx => ?_, by decide⟩
  simp only [program, List.mem_cons, List.not_mem_nil, or_false] at hx
  have key : ∀ q : Request, (∀ f, footprint q.instr = some f → f.refusal 16 = none) →
      ∀ f, footprint q.instr = some f → f.Defined 16 := fun q h f hf => defined_of (h f hf)
  rcases hx with rfl | rfl | rfl
  · exact ⟨by decide, by decide, key _ (by decide)⟩
  · exact ⟨by decide, by decide, key _ (by decide)⟩
  · exact ⟨by decide, by decide, key _ (by decide)⟩

/-- R22, R130: the first request is stuck, and the second and third are answered all the same. -/
theorem test_run_goes_on_past_a_stuck_request :
    (nextOf (core.run 3 (blocked (program.map fun x => .request x.1 x.2.1 x.2.2)))).map State.delivered
      = some [{ requester := 2, response := { status := .ok, length := 4 } },
          { requester := 3, response := { status := .bufferTooSmall, length := 0 } }] := by rfl

theorem witness_ResetStateIsIdle : 2 ^ 32 - 1 < 2 ^ State.reset.addrW := by decide

theorem witness_ResetBetweenRequestsKeepsMemory :
    (with1 [.reset]).flying = [] ∧ (with1 [.reset]).inputs = [.reset] := ⟨rfl, rfl⟩

/-- A request cut by a reset while it is raced on, beside a stuck one, and a reset with one stuck; addresses at the edges of the
regions. -/
theorem witness_ResetAbandonsTheRequestInFlight :
    let is := ({ with1 [] with stuck := [behindI] } : State).flying ++ [shortQ.instr]
    (∃ t, step { with1 [.requestCutByReset shortQ races] with stuck := [behindI] } = .next t) ∧
      (∃ t, step (with1 [.requestCutByReset failingQ []]) = .next t) ∧
      (∃ t, step { with1 [.reset] with stuck := [behindI] } = .next t) ∧
      (with1 []).mem.wf ∧ Accepted shortQ.instr ∧ Accepted behindI ∧ ¬ Accepted failingQ.instr ∧
      (∀ i ∈ is, Accepted i → 0xFFF < i.dst ∨ i.dst + packetSize i ≤ 0xFFF) ∧
      (∀ i ∈ is, Accepted i → 0x100C < i.dst ∨ i.dst + packetSize i ≤ 0x100C) ∧
      (shortQ.src ≤ 0x2000 ∧ 0x2000 < shortQ.src + shortQ.len.toNat) ∧
      (∀ i ∈ [behindI], Accepted i → 0x2000 < i.dst ∨ i.dst + packetSize i ≤ 0x2000) ∧
      ¬ TouchedAt is races 0x2000 ∧ TouchedAt is races 0x2001 ∧ ¬ TouchedAt is races 0xFFF ∧
      (regionsOf behindI).Defined (with1 []).addrW := by
  refine ⟨⟨_, rfl⟩, ⟨_, rfl⟩, ⟨_, rfl⟩, ?_⟩
  simp only [touchedAt_iff, ← refusal_eq_none_iff]
  decide

theorem witness_CutRequestIsAbandonedWhenPresentable :
    Presentable (with1 [.requestCutByReset shortQ races]) shortQ races := by
  refine ⟨by decide, by decide, fun f hf => defined_of ?_⟩
  revert f
  decide

theorem witness_RequestRightAfterResetIsAnswered :
    (with1 [.reset, .request 1 shortQ []]).inputs = .reset :: .request 1 shortQ [] :: [] ∧
      Orderly (with1 [.reset, .request 1 shortQ []]) shortQ [] :=
  ⟨rfl, orderly_s0 (by decide) (by decide) _⟩

/-- A block in which a request is stuck, and another one that arrives. -/
theorem witness_StuckRequestsStayAndOthersAreAnswered :
    (blocked []).inputs = [] ∧
      (∃ t, step { with1 [.request 1 shortQ []] with stuck := [longI] } = .next t) ∧
      ({ with1 [.request 1 shortQ []] with stuck := [longI] } : State).flying = [longI] ∧
      Served { with1 [.request 1 shortQ []] with stuck := [longI] } shortQ [] :=
  ⟨rfl, ⟨_, rfl⟩, rfl, served_s0 (by decide) (by decide) rfl [.request 1 shortQ []]⟩

/-- A block on a platform that denies the second source byte. -/
def halfRead (inputs : List Input) : State := { stDenied 0x2001 1 .read with inputs := inputs }

theorem stuck_halfRead (inputs : List Input) : IsStuck (halfRead inputs) shortQ.instr :=
  ⟨by decide, defined_of (show Footprint.refusal 16 _ = none by decide),
    fun h => absurd (h.1 0x2001 (by decide) (by decide)) (show ¬ false = true by decide)⟩

/-- With a race, and with an access behind the packet; a byte that is not touched and can be written, and one that cannot. -/
theorem witness_RequestMeetingAStuckAccessStaysInFlight :
    Inv (halfRead [.request 1 shortQ races]) ∧ shortQ.wf 16 = true ∧ firstOutside 16 races = none ∧
      IsStuck (halfRead [.request 1 shortQ races]) shortQ.instr ∧
      (¬ TouchedAt ((halfRead []).flying ++ [shortQ.instr]) races 0x1001 ∧
        TouchedAt ((halfRead []).flying ++ [shortQ.instr]) races 0x1000 ∧
        ¬ TouchedAt ((halfRead []).flying ++ [shortQ.instr]) races 0x1004) ∧
      (∀ b ∈ races, ¬ (shortQ.dst + packetSize shortQ.instr ≤ b.addr ∧ b.addr < shortQ.dst + shortQ.cap.toNat)) ∧
      (halfRead []).admits .write 0x1001 = true ∧
      (∃ b ∈ [BusAccess.read 0x1004], shortQ.dst + packetSize shortQ.instr ≤ b.addr ∧ b.addr < shortQ.dst + (5 : Word).toNat) := by
  refine ⟨inv_of (by decide) ⟨rfl, rfl, rfl, rfl⟩, by decide, by decide, stuck_halfRead _, ?_⟩
  simp only [touchedAt_iff]
  decide

/-- R22, R28: with `LEN` 1 and `SRC` denied, the payload byte and the ECC are written by no order of the accesses; with `SRC + 1`
denied, byte 2 and the ECC. -/
theorem test_stuck_read_writes_nothing_it_needs :
    (List.range 4).filter ((stDenied 0x4000 1 .read).mayHaveWritten (.encodeShort 0x3000 4 0 5 0x4000 1)) = [0, 2] ∧
      (List.range 4).filter ((halfRead []).mayHaveWritten shortI) = [0, 1] := by decide

/-- R23, R28: with one byte of the destination denied, a long request can have written every other one. -/
theorem test_stuck_write_leaves_the_others_open :
    (List.range 8).filter ((stDenied 0x1005 1 .write).mayHaveWritten longI) = [0, 1, 2, 3, 4, 6, 7] := by decide

/-- A failing request, and a stuck one whose buffer another agent reads meanwhile. -/
theorem witness_TouchedBytesAreOpenAndOthersStay :
    Inv (halfRead [.request 1 failingQ [.read 0x1003]]) ∧
      Presentable (halfRead [.request 1 failingQ [.read 0x1003]]) failingQ [.read 0x1003] ∧
      Presentable (halfRead [.request 1 shortQ races]) shortQ races ∧
      TouchedAt [shortQ.instr, failingQ.instr] [.read 0x1003] 0x1003 ∧
      ¬ TouchedAt [shortQ.instr, failingQ.instr] [.read 0x1004] 0x1004 := by
  refine ⟨inv_of (by decide) ⟨rfl, rfl, rfl, rfl⟩, ⟨by decide, by decide, fun f hf => defined_of ?_⟩,
    ⟨by decide, by decide, fun f hf => defined_of ?_⟩, ?_⟩
  · revert f
    decide
  · revert f
    decide
  · simp only [touchedAt_iff]
    decide

/-- Two payloads that agree where they must: the second byte of a long packet's payload, and the empty set for its header. -/
theorem witness_PacketBytesAreMadeOfTheirSourceBytes :
    Accepted longI ∧ (∀ j, j < 2 → dependsOn longI 5 j = true → [0x01, 0x02].getD j (0 : Byte) = [0x03, 0x02].getD j 0) ∧
      (∀ j, j < 2 → dependsOn longI 3 j = true → [0x01, 0x02].getD j (0 : Byte) = [0x03, 0x04].getD j 0) ∧
      5 < packetSize longI ∧ longI.op = true ∧ Accepted shortI ∧ shortI.op = false ∧ 1 < shortI.len.toNat := by decide

theorem witness_StepKeepsTheParameters :
    (∃ t, step (with1 [.request 1 shortQ []]) = .next t) ∧ (∃ t, step (with1 [.bus (.write 65535 1)]) = .next t) :=
  ⟨⟨_, rfl⟩, _, rfl⟩

theorem witness_EveryStepKeepsTheInvariant :
    Inv (with1 [.request 1 shortQ []]) ∧ (∃ t, step (with1 [.request 1 shortQ []]) = .next t) ∧
      Inv (with1 [.requestCutByReset longQ []]) ∧ ∃ t, step (with1 [.requestCutByReset longQ []]) = .next t :=
  ⟨inv_with1 _, ⟨_, rfl⟩, inv_with1 _, _, rfl⟩

end Sys2Proof.Tests
end

section
/-! SUPPORT. The bytes of the packet an answered request leaves in memory, one by one, and the invariants of R9, R63 and R65
read back from them. -/

namespace Sys2Proof.Machine

/-- R49: the Data Identifier as a number, for a valid virtual channel. -/
theorem toNat_dataIdentifier {vc : Byte} (ct : Byte) (h : vc.toNat ≤ 3) :
    (dataIdentifier vc ct).toNat = vc.toNat * 64 + ct.toNat % 64 := by
  have hct : ct.toNat &&& 63 = ct.toNat % 64 := Nat.and_two_pow_sub_one_eq_mod ct.toNat 6
  have hvc : vc.toNat * 64 % 256 = vc.toNat * 64 := by omega
  have hor : vc.toNat * 64 ||| ct.toNat % 64 = vc.toNat * 64 + ct.toNat % 64 := by
    rw [Nat.mul_comm]
    exact (Nat.two_pow_add_eq_or_of_lt (i := 6) (Nat.mod_lt _ (by decide)) _).symm
  simp [dataIdentifier, Nat.shiftLeft_eq, hct, hvc, hor]

/-- R25: the two low bytes of a word that fits in 16 bits, read little-endian, are the word. -/
theorem toNat_low_bytes {w : Word} (h : w.toNat ≤ 65535) :
    (w.extractLsb' 0 8).toNat + 256 * (w.extractLsb' 8 8).toNat = w.toNat := by
  simp only [BitVec.extractLsb'_toNat, Nat.shiftRight_eq_div_pow]
  omega

/-- Byte 0 of either packet is the Data Identifier (R50, R51). -/
theorem packetOf_getD_zero (i : Instr) (p : List Byte) : (packetOf i p).getD 0 0 = dataIdentifier i.vc i.ct := by
  cases i <;> rfl

/-- Bytes 1 and 2 of a long packet are the two low bytes of `LEN` (R51). -/
theorem packetOf_getD_len {i : Instr} (hop : i.op = true) (p : List Byte) :
    (packetOf i p).getD 1 0 = i.len.extractLsb' 0 8 ∧ (packetOf i p).getD 2 0 = i.len.extractLsb' 8 8 := by
  cases i with
  | encodeShort => cases hop
  | encodeLong => exact ⟨rfl, rfl⟩

/-- Byte `4 + k` of a long packet is byte `k` of its payload (R51). -/
theorem packetOf_getD_payload {i : Instr} (hop : i.op = true) {p : List Byte} {k : Nat} (h : k < p.length) :
    (packetOf i p).getD (4 + k) 0 = p.getD k 0 := by
  cases i with
  | encodeShort => cases hop
  | encodeLong =>
    simp only [packetOf, longPacket, List.append_assoc]
    rw [List.getD_append_right _ _ _ _ (by simp), List.getD_append _ _ _ _ (by simpa using h), length_withEcc,
      Nat.add_sub_cancel_left]

/-- A request answered with `OK` passed every argument check, and its transaction ran. -/
theorem exec_next_ok {i : Instr} {s t : State} {n : Word} (h : exec i s = .next t) (hr : t.response = some ⟨.ok, n⟩) :
    Accepted i ∧ t = transacted (regionsOf i) (packetOf i) s := by
  rcases exec_next h with ⟨e, he, rfl⟩ | ⟨f, hf, -, -, rfl⟩
  · obtain rfl : e = .ok := congrArg Response.status (Option.some.inj hr)
    have hna : ¬ Accepted i := fun ha => by simp [argError_eq_none_iff.2 ha] at he
    obtain ⟨e, he', hne⟩ := argError_of_not_accepted hna
    exact absurd (Option.some.inj (he'.symm.trans he)) hne
  · obtain ⟨ha, rfl⟩ := footprint_eq_some hf
    exact ⟨ha, rfl⟩

/-- The length a performed request reports is the packet's: it fits in 32 bits, as `CAP` does (R63). -/
theorem toNat_length_transacted {i : Instr} {s : State} {packet : List Byte → List Byte} {st : Status} {n : Word}
    (ha : Accepted i) (hr : (transacted (regionsOf i) packet s).response = some ⟨st, n⟩) : n.toNat = packetSize i := by
  obtain rfl : BitVec.ofNat 32 (packetSize i) = n := congrArg Response.length (Option.some.inj hr)
  obtain ⟨-, -, hcap⟩ := ha
  exact Nat.mod_eq_of_lt (hcap.trans_lt i.cap.isLt)

/-- A performed request leaves its packet at `DST`, byte by byte, made of the payload at `SRC`. -/
theorem read_transacted {i : Instr} {s : State} (ha : Accepted i) (hm : s.mem.wf) {k : Nat} (hk : k < packetSize i) :
    (transacted (regionsOf i) (packetOf i) s).mem.read (i.dst + k)
      = (packetOf i (s.mem.readAll i.src i.len.toNat)).getD k 0 := by
  have hlen : k < (packetOf i (s.mem.readAll i.src i.len.toNat)).length :=
    hk.trans_eq (length_packetOf (footprint_of_accepted ha) s.mem).symm
  rw [List.getD_eq_getElem _ _ hlen]
  exact Memory.read_writeAll_inside hm hlen

/-- Either packet has its four header bytes (R63). -/
theorem four_le_packetSize (i : Instr) : 4 ≤ packetSize i := by
  unfold packetSize
  split <;> omega

/-- R9: the top two bits of the byte at `DST` are the virtual channel. -/
theorem read_transacted_channel {i : Instr} {s : State} (ha : Accepted i) (hm : s.mem.wf) :
    ((transacted (regionsOf i) (packetOf i) s).mem.read i.dst).toNat / 64 = i.vc.toNat := by
  have hsize := four_le_packetSize i
  have ⟨hvc, _, _⟩ := ha
  have hread := read_transacted ha hm (k := 0) (by omega)
  rw [Nat.add_zero, packetOf_getD_zero] at hread
  rw [hread, toNat_dataIdentifier _ hvc]
  omega

/-- R65: the length field of a long packet, read little-endian. -/
theorem read_transacted_len {i : Instr} {s : State} (hop : i.op = true) (ha : Accepted i) (hm : s.mem.wf) :
    ((transacted (regionsOf i) (packetOf i) s).mem.read (i.dst + 1)).toNat
      + 256 * ((transacted (regionsOf i) (packetOf i) s).mem.read (i.dst + 2)).toNat = i.len.toNat := by
  have hsize := four_le_packetSize i
  obtain ⟨hlow, hhigh⟩ := packetOf_getD_len hop (s.mem.readAll i.src i.len.toNat)
  have ⟨_, hvalid, _⟩ := ha
  have hlen : i.len.toNat ≤ 65535 := by simpa [LengthValid, hop] using hvalid
  rw [read_transacted ha hm (by omega), read_transacted ha hm (by omega), hlow, hhigh, toNat_low_bytes hlen]

/-- R65: the payload of a long packet is the source bytes. -/
theorem read_transacted_payload {i : Instr} {s : State} (hop : i.op = true) (ha : Accepted i) (hm : s.mem.wf) {k : Nat}
    (hk : k < i.len.toNat) :
    (transacted (regionsOf i) (packetOf i) s).mem.read (i.dst + 4 + k) = s.mem.read (i.src + k) := by
  have hin : 4 + k < packetSize i := by rw [packetSize, if_pos hop]; omega
  have hp : k < (s.mem.readAll i.src i.len.toNat).length := by simpa using hk
  rw [Nat.add_assoc, read_transacted ha hm hin, packetOf_getD_payload hop hp, List.getD_eq_getElem _ _ hp,
    Memory.getElem_readAll]

/-- Settles O16: a request answered with `OK` left its packet at `DST` (`exec_next_ok`, `read_transacted`), so each invariant
is read off the packet's bytes. -/
theorem writtenPacketsKeepThePacketInvariants : Obligations.WrittenPacketsKeepThePacketInvariants := by
  intro i s t n hm h hr
  obtain ⟨ha, rfl⟩ := exec_next_ok h hr
  have hn : n.toNat = packetSize i := toNat_length_transacted ha hr
  refine ⟨read_transacted_channel ha hm, fun hop => ?_, fun hop => ⟨?_, read_transacted_len hop ha hm,
    fun _ => read_transacted_payload hop ha hm⟩⟩
  · simp [hn, packetSize, hop]
  · simp [hn, packetSize, hop]

end Sys2Proof.Machine
end

section
/-! SUPPORT. The encoding of requests: the fields of the command word as numbers and under the mask of R47, `exec` as a function
of what it looks at, and the statements of spec/30_encoding.md R41, R42, R47 to R49 about them. -/

namespace Sys2Proof

/-- R41: `vc` is `CMD[15:8]`, as a number. -/
theorem Request.toNat_vc (q : Request) : q.vc.toNat = q.cmd.toNat / 2 ^ 8 % 2 ^ 8 := by
  rw [Request.vc, BitVec.extractLsb'_toNat, Nat.shiftRight_eq_div_pow]

/-- R41: `ct` is `CMD[23:16]`, as a number. -/
theorem Request.toNat_ct (q : Request) : q.ct.toNat = q.cmd.toNat / 2 ^ 16 % 2 ^ 8 := by
  rw [Request.ct, BitVec.extractLsb'_toNat, Nat.shiftRight_eq_div_pow]

/-- R41: `op` is set exactly if `CMD` is odd. -/
theorem Request.op_eq (q : Request) : q.op = decide (q.cmd.toNat % 2 = 1) := by
  rw [Request.op, BitVec.getLsbD, Nat.testBit_zero]

/-- R42: an even `CMD` asks for `ENCODE_SHORT`. -/
theorem Request.instr_of_even {q : Request} (h : q.cmd.toNat % 2 = 0) :
    q.instr = .encodeShort q.dst q.cap q.vc q.ct q.src q.len := by
  simp [Request.instr, Request.op_eq, h]

/-- R42: an odd `CMD` asks for `ENCODE_LONG`. -/
theorem Request.instr_of_odd {q : Request} (h : q.cmd.toNat % 2 = 1) :
    q.instr = .encodeLong q.dst q.cap q.vc q.ct q.src q.len := by
  simp [Request.instr, Request.op_eq, h]

/-- A request whose addresses have `ADDR_W` bits is well-formed (R40). -/
theorem Request.wf_of_lt {w : Nat} {q : Request} (hsrc : q.src < 2 ^ w) (hdst : q.dst < 2 ^ w) : q.wf w = true := by
  simp [Request.wf, fitsAddr, hsrc, hdst]

/-- R47: the operation a request asks for is the same with its reserved bits cleared. -/
theorem Request.instr_clearReserved (q : Request) : Request.instr { q with cmd := q.cmd &&& 0x00FFFF01 } = q.instr := by
  have hop : Request.op { q with cmd := q.cmd &&& 0x00FFFF01 } = q.op := by simp [Request.op]
  have hvc : Request.vc { q with cmd := q.cmd &&& 0x00FFFF01 } = q.vc := BitVec.extractLsb'_and.trans BitVec.and_allOnes
  have hct : Request.ct { q with cmd := q.cmd &&& 0x00FFFF01 } = q.ct := BitVec.extractLsb'_and.trans BitVec.and_allOnes
  rw [Request.instr, hop, hvc, hct, Request.instr]

/-- R47: command words that differ only in the reserved bits ask for the same operation. -/
theorem Request.instr_congr_reserved {q : Request} {cmd : Word} (h : q.cmd &&& 0x00FFFF01 = cmd &&& 0x00FFFF01) :
    Request.instr { q with cmd := cmd } = q.instr := by
  rw [← Request.instr_clearReserved q, ← Request.instr_clearReserved { q with cmd := cmd }, h]

/-- The decoder looks at the addresses of a request and at the operation it asks for, and at nothing else (R42, R47). -/
theorem decode_congr {w : Nat} {q q' : Request} (hi : q'.instr = q.instr) (hsrc : q'.src = q.src) (hdst : q'.dst = q.dst) :
    decode w q' = decode w q := by
  simp only [decode, hi, hsrc, hdst]

end Sys2Proof

namespace Sys2Proof.Machine

/-- An accepted request whose regions have a result and whose accesses are admitted leaves its packet and `(OK, size)`. -/
theorem exec_of_clear {i : Instr} {f : Footprint} {s : State} (hf : footprint i = some f) (hd : f.Defined s.addrW)
    (ha : f.Admitted s) : exec i s = .next (transacted f (packetOf i) s) := by
  rw [exec_of_footprint hf, transact_of_clear (length_packetOf hf s.mem) hd ha]

/-- A request with regions that have no result is refused (R30). -/
theorem exec_of_refusal {i : Instr} {f : Footprint} {s : State} {r : Refusal} (hf : footprint i = some f)
    (hr : f.refusal s.addrW = some r) : exec i s = .refused r := by
  rw [exec_of_footprint hf, transact, hr]

/-- A transaction whose regions have a result is not refused. -/
theorem transact_ne_refused {f : Footprint} {s : State} (hd : f.Defined s.addrW) (packet : List Byte → List Byte)
    (r : Refusal) : transact f packet s ≠ .refused r := by
  rw [transact, refusal_eq_none_iff.2 hd]
  dsimp only
  split
  · simp
  · split <;> simp

/-- A request that meets an access the platform does not admit faults (R22, R23). -/
theorem exec_of_not_admitted {i : Instr} {f : Footprint} {s : State} (hf : footprint i = some f) (hd : f.Defined s.addrW)
    (ha : ¬ f.Admitted s) : ∃ r, exec i s = .fault r := by
  cases hx : exec i s with
  | fault r => exact ⟨r, rfl⟩
  | refused r =>
    rw [exec_of_footprint hf] at hx
    exact absurd hx (transact_ne_refused hd _ _)
  | next t =>
    rw [exec_of_footprint hf] at hx
    exact absurd (transact_next (length_packetOf hf s.mem) hx).2.1 ha

/-- `exec` looks at an operation through its argument error, its regions and its packet. -/
theorem exec_congr {i i' : Instr} (he : argError i' = argError i) (hf : footprint i' = footprint i)
    (hp : packetOf i' = packetOf i) (s : State) : exec i' s = exec i s := by
  cases hfi : footprint i with
  | none =>
    obtain ⟨e, hei⟩ := footprint_eq_none_iff.1 hfi
    rw [exec_of_argError hei, exec_of_argError (he.trans hei)]
  | some f => rw [exec_of_footprint hfi, exec_of_footprint (hf.trans hfi), hp]

/-- Whether a request is answered, and with what response, depends on its argument error and its regions alone. -/
theorem exec_next_response_congr {i i' : Instr} {s t : State} (he : argError i' = argError i)
    (hf : footprint i' = footprint i) (h : exec i s = .next t) : ∃ t', exec i' s = .next t' ∧ t'.response = t.response := by
  rcases exec_next h with ⟨e, hei, rfl⟩ | ⟨f, hfi, hd, ha, rfl⟩
  · exact ⟨_, exec_of_argError (he.trans hei) s, rfl⟩
  · exact ⟨_, exec_of_clear (hf.trans hfi) hd ha, rfl⟩

/-- `exec` looks at the operation it is given and not at the request in flight: with another one there it has the same outcome,
or it faults with both (a fault carries the state, so the two faults differ). -/
theorem exec_congr_inFlight (i : Instr) (s : State) (x : Option Request) :
    exec i { s with inFlight := x } = exec i s ∨
      ∃ r r', exec i s = .fault r ∧ exec i { s with inFlight := x } = .fault r' := by
  cases hf : footprint i with
  | none =>
    obtain ⟨e, he⟩ := footprint_eq_none_iff.1 hf
    rw [exec_of_argError he, exec_of_argError he]
    exact .inl rfl
  | some f =>
    cases hr : f.refusal s.addrW with
    | some r =>
      rw [exec_of_refusal hf hr, exec_of_refusal (s := { s with inFlight := x }) hf hr]
      exact .inl rfl
    | none =>
      have hd := refusal_eq_none_iff.1 hr
      by_cases ha : f.Admitted s
      · rw [exec_of_clear hf hd ha, exec_of_clear (s := { s with inFlight := x }) hf hd ha]
        exact .inl rfl
      · obtain ⟨r, hx⟩ := exec_of_not_admitted hf hd ha
        obtain ⟨r', hx'⟩ := exec_of_not_admitted (s := { s with inFlight := x }) hf hd ha
        exact .inr ⟨r, r', hx, hx'⟩

/-- Opening bytes leaves what is being performed alone, whatever it is. -/
theorem openBytes_setInFlight (as : List Nat) (s : State) (x : Option Request) :
    as.foldl State.openByte { s with inFlight := x } = { as.foldl State.openByte s with inFlight := x } := by
  induction as generalizing s with
  | nil => rfl
  | cons a as ih => exact ih (s.openByte a)

/-- Opening the bytes of broken duties leaves what is being performed alone, whatever it is. -/
theorem scramble_setInFlight (is : List Instr) (d : List BusAccess) (s : State) (x : Option Request) :
    scramble is d { s with inFlight := x } = { scramble is d s with inFlight := x } := by
  simp only [scramble_eq_openBytes, openBytes_setInFlight]

/-- A state parked is the same whichever request with a given operation was in flight. -/
theorem park_congr_inFlight {s : State} {x : Option Request} (h : State.flying { s with inFlight := x } = s.flying) :
    State.park { s with inFlight := x } = s.park := by
  simp only [State.park, h]

/-- What a stuck request leaves depends on the operations in flight, not on the words that asked for them. -/
theorem getStuck_congr_inFlight {i : Instr} {d : List BusAccess} {s : State} {x : Option Request}
    (h : State.flying { s with inFlight := x } = s.flying) : getStuck i d { s with inFlight := x } = getStuck i d s := by
  unfold getStuck
  split
  · next f _ =>
    split
    · have hopen : State.openWritable { s with inFlight := x } f = { s.openWritable f with inFlight := x } :=
        openBytes_setInFlight _ s x
      rw [hopen, park_congr_inFlight]
      rw [← hopen, openWritable_flying, openWritable_flying, h]
    · exact park_congr_inFlight (s := s.writePart i f) h
  · exact park_congr_inFlight h

/-- Performing a request depends on its addresses and on the operation it asks for, and on nothing else (R42, R47). -/
theorem performRequest_congr {q q' : Request} (hi : q'.instr = q.instr) (hsrc : q'.src = q.src) (hdst : q'.dst = q.dst)
    (w : Nat) (during : List BusAccess) (s : State) : performRequest w q' during s = performRequest w q during s := by
  unfold performRequest present
  rw [decode_congr hi hsrc hdst]
  cases decode s.addrW q with
  | error e => rfl
  | ok i =>
    cases firstOutside s.addrW during with
    | some a => rfl
    | none =>
      dsimp only
      rw [flying_accept, flying_accept, hi]
      generalize hu : scramble _ during ((busAccesses s during).accept q) = u
      have hu' : scramble ((busAccesses s during).flying ++ [q.instr]) during ((busAccesses s during).accept q')
          = { u with inFlight := some q' } := by
        rw [← hu, ← scramble_setInFlight]; rfl
      have hfly : State.flying { u with inFlight := some q' } = u.flying := by
        rw [← hu', ← hu, scramble_flying, scramble_flying, flying_accept, flying_accept, hi]
      rw [hu', hfly, getStuck_congr_inFlight hfly]
      rcases exec_congr_inFlight i u (some q') with he | ⟨r, r', hr, hr'⟩
      · rw [he]
      · obtain ⟨-, -, -, -, a, left, hstuck⟩ := exec_fault hr
        obtain ⟨-, -, -, -, a', left', hstuck'⟩ := exec_fault hr'
        rw [hr, hr']
        rcases hstuck with rfl | rfl <;> rcases hstuck' with rfl | rfl <;> rfl

/-- Settles O6: requests that differ only in the reserved bits ask for the same operation, so the step is the same. -/
theorem reservedBitsDoNotMatter : Obligations.ReservedBitsDoNotMatter := by
  intro s w q cmd during rest h
  have hstep : step { s with inputs := .request w { q with cmd := cmd } during :: rest }
      = step { s with inputs := .request w q during :: rest } :=
    performRequest_congr (Request.instr_congr_reserved h) rfl rfl w during { s with inputs := rest }
  simp [hstep]

/-- R49: only `ct[5:0]` reaches the Data Identifier. -/
theorem dataIdentifier_congr {ct ct' : Byte} (vc : Byte) (h : ct.toNat % 64 = ct'.toNat % 64) :
    dataIdentifier vc ct = dataIdentifier vc ct' := by
  have hmask : ct &&& 0x3F = ct' &&& 0x3F := by
    apply BitVec.eq_of_toNat_eq
    have hand (n : Nat) : n &&& 63 = n % 64 := Nat.and_two_pow_sub_one_eq_mod n 6
    simpa [hand] using h
  rw [dataIdentifier, hmask, dataIdentifier]

/-- R48: only `ct[5:0]` reaches a short packet. -/
theorem shortPacket_congr {ct ct' : Byte} (vc : Byte) (h : ct.toNat % 64 = ct'.toNat % 64) :
    shortPacket vc ct = shortPacket vc ct' :=
  funext fun p => by simp only [shortPacket, dataIdentifier_congr vc h]

/-- R48: only `ct[5:0]` reaches a long packet. -/
theorem longPacket_congr {ct ct' : Byte} (vc : Byte) (len : Word) (h : ct.toNat % 64 = ct'.toNat % 64) :
    longPacket vc ct len = longPacket vc ct' len :=
  funext fun p => by simp only [longPacket, dataIdentifier_congr vc h]

/-- Settles O7: neither the argument checks nor the regions look at `ct`, and the packet only through the Data Identifier. -/
theorem commandTypeIsNotCheckedAndItsHighBitsDrop : Obligations.CommandTypeIsNotCheckedAndItsHighBitsDrop := by
  intro s dst cap vc ct ct' src len
  refine ⟨fun t => exec_next_response_congr rfl rfl, fun t => exec_next_response_congr rfl rfl, fun h => ?_⟩
  exact ⟨exec_congr (i := .encodeShort dst cap vc ct' src len) (i' := .encodeShort dst cap vc ct src len) rfl rfl
      (shortPacket_congr vc h) s,
    exec_congr (i := .encodeLong dst cap vc ct' src len) (i' := .encodeLong dst cap vc ct src len) rfl rfl
      (longPacket_congr vc len h) s⟩

/-- Settles O1: a request whose addresses fit decodes to its operation, whose fields are those of `CMD`. -/
theorem everyCommandWordDecodesByItsFields : Obligations.EveryCommandWordDecodesByItsFields := by
  intro addrW q hsrc hdst
  have hdec := decode_of_wf (Request.wf_of_lt hsrc hdst)
  refine ⟨q.vc, q.ct, q.toNat_vc, q.toNat_ct, fun h => ?_, fun h => ?_⟩
  · rw [hdec, Request.instr_of_even h]
  · rw [hdec, Request.instr_of_odd h]

/-- R60: the shift and mask of 8-bit words drop what the mask `0xFF` drops of the numbers. -/
theorem toNat_dataIdentifier_eq_masked (vc ct : Byte) :
    (dataIdentifier vc ct).toNat = ((vc.toNat <<< 6) ||| (ct.toNat &&& 0x3F)) &&& 0xFF := by
  have hct : (ct.toNat &&& 63) % 256 = ct.toNat &&& 63 := Nat.mod_eq_of_lt (Nat.and_le_right.trans_lt (by decide))
  have hmask (n : Nat) : n &&& 255 = n % 256 := Nat.and_two_pow_sub_one_eq_mod n 8
  have hor := Nat.or_mod_two_pow (a := vc.toNat <<< 6) (b := ct.toNat &&& 63) (n := 8)
  simp only [Nat.reducePow, hct] at hor
  simp [dataIdentifier, hmask, hor]

/-- Settles O9: the word operations as number operations, for every channel and for those the block evaluates it for. -/
theorem dataIdentifierJoinsChannelAndType : Obligations.DataIdentifierJoinsChannelAndType :=
  ⟨toNat_dataIdentifier_eq_masked, fun _ ct h => toNat_dataIdentifier ct h, by decide, by decide⟩

end Sys2Proof.Machine
end

section
/-! SUPPORT. The pseudocode of the two operations (spec/40_packet_encoder.md R61, R62, R64): each argument check, the refusal of a
shared byte, the bytes of either packet, and the statements about them. -/

namespace Sys2Proof.Machine

/-- R61: the length check of `ENCODE_SHORT` in its own words. -/
theorem lengthValid_encodeShort {dst src : Nat} {cap len : Word} {vc ct : Byte} :
    LengthValid (.encodeShort dst cap vc ct src len) ↔ len = 1 ∨ len = 2 :=
  or_congr (BitVec.toNat_inj (y := 1)) (BitVec.toNat_inj (y := 2))

/-- R101: the channel is checked first. -/
theorem argError_of_channel {i : Instr} (h : 3 < i.vc.toNat) : argError i = some .invalidChannel := by
  cases i <;> exact if_pos h

/-- R102, R103: the length is checked next; each operation has its own error. -/
theorem argError_of_length {i : Instr} (hvc : i.vc.toNat ≤ 3) (h : ¬ LengthValid i) :
    argError i = some (if i.op then .payloadTooLarge else .invalidLength) := by
  cases i with
  | encodeShort => exact (if_neg (not_lt.2 hvc)).trans (if_pos (not_or.1 h))
  | encodeLong => exact (if_neg (not_lt.2 hvc)).trans (if_pos (not_le.1 h))

/-- R104: the capacity is checked last. -/
theorem argError_of_capacity {i : Instr} (hvc : i.vc.toNat ≤ 3) (hlen : LengthValid i) (h : i.cap.toNat < packetSize i) :
    argError i = some .bufferTooSmall := by
  cases i with
  | encodeShort => exact (if_neg (not_lt.2 hvc)).trans ((if_neg (not_and_or.2 (hlen.imp not_not.2 not_not.2))).trans (if_pos h))
  | encodeLong => exact (if_neg (not_lt.2 hvc)).trans ((if_neg (not_lt.2 hlen)).trans (if_pos h))

/-- R30: regions that share a byte have no result. -/
theorem refusal_of_shared_byte {f : Footprint} (w : Nat)
    (h : ∃ a, f.src ≤ a ∧ a < f.src + f.n ∧ f.dst ≤ a ∧ a < f.dst + f.size) : f.refusal w = some .regionsOverlap := by
  obtain ⟨a, h1, h2, h3, h4⟩ := h
  exact if_pos (decide_eq_true ⟨by omega, by omega, by omega, by omega⟩)

/-- R30: an accepted request whose regions share a byte is refused. -/
theorem exec_of_shared_byte {i : Instr} (ha : Accepted i) (s : State)
    (h : ∃ a, i.src ≤ a ∧ a < i.src + i.len.toNat ∧ i.dst ≤ a ∧ a < i.dst + packetSize i) :
    exec i s = .refused .regionsOverlap :=
  exec_of_refusal (footprint_of_accepted ha) (refusal_of_shared_byte (f := regionsOf i) s.addrW h)

/-- R61, R62: an accepted request that meets no obstacle writes its packet at `DST` and answers `(OK, size)`. -/
theorem exec_of_accepted {i : Instr} {s : State} (ha : Accepted i) (hd : (regionsOf i).Defined s.addrW)
    (had : (regionsOf i).Admitted s) : exec i s = .next { s with
      mem := s.mem.writeAll i.dst (packetOf i (s.mem.readAll i.src i.len.toNat))
      response := some ⟨.ok, BitVec.ofNat 32 (packetSize i)⟩, inFlight := none } :=
  exec_of_clear (footprint_of_accepted ha) hd had

/-- R50: the short packet of a payload in memory; its byte 2 is the second payload byte, or 0x00 where there is none. -/
theorem shortPacket_readAll (vc ct : Byte) (m : Memory) (src : Nat) {len : Word} (h : len = 1 ∨ len = 2) :
    shortPacket vc ct (m.readAll src len.toNat)
      = withEcc (dataIdentifier vc ct) (m.read src) (if len = 2 then m.read (src + 1) else 0) := by
  rcases h with rfl | rfl <;> rfl

/-- R50, R51: a header is written as its three bytes and their ECC. -/
theorem writeAll_withEcc (m : Memory) (a : Nat) (b0 b1 b2 : Byte) : m.writeAll a (withEcc b0 b1 b2)
    = (((m.write a b0).write (a + 1) b1).write (a + 2) b2).write (a + 3) (headerEcc b0 b1 b2) := rfl

/-- R25: a 16-bit field is written low byte first, each byte as a number. -/
theorem writeAll_littleEndian (m : Memory) (a : Nat) (v : Half) : m.writeAll a (littleEndian v)
    = (m.write a (BitVec.ofNat 8 v.toNat)).write (a + 1) (BitVec.ofNat 8 (v.toNat / 256)) := by
  simp [littleEndian, Memory.writeAll, BitVec.extractLsb', Nat.shiftRight_eq_div_pow]

/-- R51: the header of a long packet with the two low bytes of `LEN` as numbers. -/
theorem longPacket_eq (vc ct : Byte) (len : Word) (p : List Byte) : longPacket vc ct len p
    = withEcc (dataIdentifier vc ct) (BitVec.ofNat 8 len.toNat) (BitVec.ofNat 8 (len.toNat / 256)) ++ p
      ++ littleEndian (payloadChecksum p) := by
  simp [longPacket, BitVec.extractLsb', Nat.shiftRight_eq_div_pow]

/-- R62: the writes of a long packet, in the order of the pseudocode. -/
theorem writeAll_longPacket (m : Memory) (a : Nat) (vc ct : Byte) (len : Word) (p : List Byte) :
    m.writeAll a (longPacket vc ct len p)
      = ((m.writeAll a (withEcc (dataIdentifier vc ct) (BitVec.ofNat 8 len.toNat) (BitVec.ofNat 8 (len.toNat / 256)))
        ).writeAll (a + 4) p).writeAll (a + 4 + p.length) (littleEndian (payloadChecksum p)) := by
  rw [longPacket_eq, Memory.writeAll_append, Memory.writeAll_append, List.length_append, length_withEcc, Nat.add_assoc]

/-- R62's example: the header and the trailer of a 64-byte payload with checksum 0x0365. -/
theorem longPacket_example {p : List Byte} (hc : payloadChecksum p = 0x0365) :
    longPacket 0 0x39 64 p = [0x39, 0x40, 0x00, 0x25] ++ p ++ [0x65, 0x03] := by
  have hheader : withEcc (dataIdentifier 0 0x39) ((64 : Word).extractLsb' 0 8) ((64 : Word).extractLsb' 8 8)
      = [0x39, 0x40, 0x00, 0x25] := by decide
  have htrailer : littleEndian 0x0365 = [0x65, 0x03] := by decide
  rw [longPacket, hheader, hc, htrailer]

/-- Settles O12: each clause is a check, the refusal or the transaction of either operation, said of this one; the example is
the clause before it at the example's bytes. -/
theorem encodeShortFollowsItsPseudocode : Obligations.EncodeShortFollowsItsPseudocode := by
  intro s dst cap vc ct src len out f b0 b1 b2
  have hraise {e : Status} (h : argError (.encodeShort dst cap vc ct src len) = some e) :
      out = .next { s with response := some ⟨e, 0⟩, inFlight := none } := exec_of_argError h s
  have haccepted (hvc : vc.toNat ≤ 3) (hlen : len = 1 ∨ len = 2) (hcap : 4 ≤ cap.toNat) :
      Accepted (.encodeShort dst cap vc ct src len) := ⟨hvc, lengthValid_encodeShort.2 hlen, hcap⟩
  have hout (hvc : vc.toNat ≤ 3) (hlen : len = 1 ∨ len = 2) (hcap : 4 ≤ cap.toNat) (hd : f.Defined s.addrW)
      (ha : f.Admitted s) : out = .next { s with
        mem := (((s.mem.write dst b0).write (dst + 1) b1).write (dst + 2) b2).write (dst + 3) (headerEcc b0 b1 b2)
        response := some ⟨.ok, 4⟩, inFlight := none } := by
    rw [← writeAll_withEcc, ← shortPacket_readAll vc ct s.mem src hlen]
    exact exec_of_accepted (haccepted hvc hlen hcap) hd ha
  refine ⟨fun hvc => ?channel, fun hvc h1 h2 => ?length, fun hvc hlen hcap => ?capacity, fun hvc hlen hcap h => ?overlap,
    hout, fun hvc hct hlen hcap hd ha hb => ?sample⟩
  case channel => exact hraise (argError_of_channel hvc)
  case length => exact hraise (argError_of_length hvc (mt lengthValid_encodeShort.1 (not_or.2 ⟨h1, h2⟩)))
  case capacity => exact hraise (argError_of_capacity hvc (lengthValid_encodeShort.2 hlen) hcap)
  case overlap => exact exec_of_shared_byte (haccepted hvc hlen hcap) s h
  case sample =>
    have hb0 : b0 = 0x05 := by subst hvc hct; decide
    have hb2 : b2 = 0 := if_neg (by subst hlen; decide)
    have hecc : headerEcc 0x05 0x11 0 = 0x36 := by decide
    rw [hout (by subst hvc; decide) (.inl hlen) hcap hd ha, hb0, hb, hb2, hecc]

/-- Settles O13: each clause is a check, the refusal or the transaction of either operation, said of this one; the example is
the transaction with the example's packet. -/
theorem encodeLongFollowsItsPseudocode : Obligations.EncodeLongFollowsItsPseudocode := by
  intro s dst cap vc ct src len out n f b0 b1 b2 p c
  have hraise {e : Status} (h : argError (.encodeLong dst cap vc ct src len) = some e) :
      out = .next { s with response := some ⟨e, 0⟩, inFlight := none } := exec_of_argError h s
  have haccepted (hvc : vc.toNat ≤ 3) (hlen : n ≤ 65535) (hcap : 4 + n + 2 ≤ cap.toNat) :
      Accepted (.encodeLong dst cap vc ct src len) := ⟨hvc, hlen, hcap⟩
  have hout (hvc : vc.toNat ≤ 3) (hlen : n ≤ 65535) (hcap : 4 + n + 2 ≤ cap.toNat) (hd : f.Defined s.addrW)
      (ha : f.Admitted s) : out = .next { s with
        mem := s.mem.writeAll dst (longPacket vc ct len p)
        response := some ⟨.ok, BitVec.ofNat 32 (4 + n + 2)⟩, inFlight := none } :=
    exec_of_accepted (haccepted hvc hlen hcap) hd ha
  refine ⟨fun hvc => ?channel, fun hvc hlen => ?length, fun hvc hlen hcap => ?capacity, fun hvc hlen hcap h => ?overlap,
    fun hvc hlen hcap hd ha => ?answers, fun hvc hct hn hcap hd ha hc => ?sample⟩
  case channel => exact hraise (argError_of_channel hvc)
  case length => exact hraise (argError_of_length hvc (not_le.2 hlen))
  case capacity => exact hraise (argError_of_capacity hvc hlen hcap)
  case overlap => exact exec_of_shared_byte (haccepted hvc hlen hcap) s h
  case answers =>
    rw [hout hvc hlen hcap hd ha, writeAll_longPacket, writeAll_withEcc, writeAll_littleEndian, Memory.length_readAll]
  case sample =>
    have hlen : len = 64 := BitVec.eq_of_toNat_eq hn
    have hsum : payloadChecksum p = 0x0365 := BitVec.eq_of_toNat_eq hc
    rw [hout (by subst hvc; decide) (by omega) (by omega) hd ha, hvc, hct, hlen, longPacket_example hsum, hn]
    rfl

/-- Settles O17: a request that fails a check raises the same error on both states; one that passes them all leaves the packet
of its payload, which both states hold (`read_transacted`). -/
theorem packetDependsOnRequestAndPayloadAlone : Obligations.PacketDependsOnRequestAndPayloadAlone := by
  intro i s s' hs hs' hsrc
  by_cases ha : Accepted i
  · have hf := footprint_of_accepted ha
    obtain ⟨hd, had⟩ := hs _ hf
    obtain ⟨hd', had'⟩ := hs' _ hf
    refine ⟨_, _, exec_of_clear hf hd had, exec_of_clear hf hd' had', rfl, fun _ hm hm' k hk => ?_⟩
    have hp : s.mem.readAll i.src i.len.toNat = s'.mem.readAll i.src i.len.toNat := by
      refine Memory.readAll_congr fun b h1 h2 => ?_
      obtain ⟨j, rfl⟩ := Nat.exists_eq_add_of_le h1
      exact hsrc j (by omega)
    rw [read_transacted ha hm hk, read_transacted ha hm' hk, hp]
  · obtain ⟨e, he, -⟩ := argError_of_not_accepted ha
    exact ⟨_, _, exec_of_argError he s, exec_of_argError he s', rfl, fun h => absurd h ha⟩

end Sys2Proof.Machine
end

section
/-! SUPPORT. HeaderECC on the source's own headers (spec/41_header_ecc.md R75). -/

namespace Sys2Proof.Machine

/-- Settles O25: on each header of the source the parity equations of R72 evaluate to its golden byte. -/
theorem goldenEccBytes : Obligations.GoldenEccBytes :=
  have scenario1 : headerEcc 0x05 0x11 0x00 = 0x36 := by decide
  have scenario2 : headerEcc 0x15 0xBC 0x4E = 0x35 := by decide
  have scenario3 : headerEcc 0x39 0x40 0x00 = 0x25 := by decide
  ⟨scenario1, scenario2, scenario3⟩

end Sys2Proof.Machine
end

section
/-! SUPPORT. PayloadChecksum over a payload's bytes in order, and the empty payload (spec/42_payload_checksum.md R81, R83). -/

namespace Sys2Proof.Machine

/-- R85: the loop goes on over an appended payload from the value it has reached. -/
theorem crcFrom_append (crc : Half) (p q : List Byte) : crcFrom crc (p ++ q) = crcFrom (crcFrom crc p) q :=
  List.foldl_append

/-- R81: the loop performs one update for one byte. -/
theorem crcFrom_singleton (crc : Half) (b : Byte) : crcFrom crc [b] = crcByte crc b := rfl

/-- Settles O27: a payload and one more byte is the payload, then a loop of one update. -/
theorem checksumUpdatesByteByByte : Obligations.ChecksumUpdatesByteByByte := by
  intro p b crc
  calc payloadChecksum (p ++ [b])
    _ = crcFrom crc [b] := crcFrom_append crcSeed p [b]
    _ = crcByte crc b := crcFrom_singleton crc b

/-- R83: the loop does not run for the empty payload, so the seed remains. -/
theorem payloadChecksum_nil : payloadChecksum [] = 0xFFFF := rfl

/-- R83: the long packet of the empty payload is its header and the seed. -/
theorem longPacket_zero_nil (vc ct : Byte) : longPacket vc ct 0 []
    = [dataIdentifier vc ct, 0x00, 0x00, headerEcc (dataIdentifier vc ct) 0x00 0x00, 0xFF, 0xFF] := by
  have htrailer : littleEndian 0xFFFF = [0xFF, 0xFF] := by decide
  rw [longPacket, payloadChecksum_nil, htrailer]
  rfl

/-- R30: an empty source region shares no byte, so only the tops of the two regions matter. -/
theorem defined_of_empty_source {f : Footprint} {w : Nat} (hn : f.n = 0) (hsrc : f.src ≤ 2 ^ w)
    (hdst : f.dst + f.size ≤ 2 ^ w) : f.Defined w :=
  ⟨fun a _ _ => by omega, hdst, by rwa [hn]⟩

/-- R22: an empty source region asks the platform for no read. -/
theorem admitted_of_empty_source {f : Footprint} {s : State} (hn : f.n = 0)
    (hw : ∀ a, f.dst ≤ a → a < f.dst + f.size → s.admits .write a = true) : f.Admitted s :=
  ⟨fun a _ _ => by omega, hw⟩

/-- Settles O31: the request is accepted, and with nothing to read its regions are defined and admitted, so it writes the packet
of the empty payload. -/
theorem emptyPayloadPacket : Obligations.EmptyPayloadPacket := by
  refine ⟨payloadChecksum_nil, fun s dst cap vc ct src hvc hcap hsrc hdst hw => ?_⟩
  have haccepted : Accepted (.encodeLong dst cap vc ct src 0) := ⟨hvc, Nat.zero_le _, hcap⟩
  rw [← longPacket_zero_nil]
  exact exec_of_accepted haccepted (defined_of_empty_source rfl hsrc hdst) (admitted_of_empty_source rfl hw)

end Sys2Proof.Machine
end

section
/-! SUPPORT. The status of an answered request (spec/60_exceptions.md R100 to R106): its condition in the words of the rules, and
the response it comes with. -/

namespace Sys2Proof.Machine

/-- R101 to R104 in the priority of R106: when a request's arguments give a status. `answerStatus_eq_iff` ties it to the checks. -/
def GivesStatus (i : Instr) : Status → Prop
  | .ok => Accepted i
  | .invalidChannel => 3 < i.vc.toNat
  | .invalidLength => i.op = false ∧ i.vc.toNat ≤ 3 ∧ ¬ (i.len.toNat = 1 ∨ i.len.toNat = 2)
  | .payloadTooLarge => i.op = true ∧ i.vc.toNat ≤ 3 ∧ 65535 < i.len.toNat
  | .bufferTooSmall => i.vc.toNat ≤ 3 ∧ LengthValid i ∧ i.cap.toNat < packetSize i

/-- The status the argument checks compute: the first error, or `OK` where there is none. -/
def answerStatus (i : Instr) : Status := (argError i).getD .ok

/-- R18: the length a response has with a status: the packet's with `OK`, 0 with an error. -/
def responseLength (i : Instr) (st : Status) : Word := if st = .ok then BitVec.ofNat 32 (packetSize i) else 0

/-- No check raises `OK`. -/
theorem argError_ne_ok (i : Instr) : argError i ≠ some .ok := by
  by_cases ha : Accepted i
  · simp [argError_eq_none_iff.2 ha]
  · obtain ⟨e, he, hne⟩ := argError_of_not_accepted ha
    simpa [he] using hne

/-- R43, R102: what the length check of `ENCODE_SHORT` asks. -/
theorem lengthValid_of_short {i : Instr} (hop : i.op = false) : LengthValid i ↔ i.len.toNat = 1 ∨ i.len.toNat = 2 := by
  simp [LengthValid, hop]

/-- R43, R103: what the length check of `ENCODE_LONG` asks. -/
theorem lengthValid_of_long {i : Instr} (hop : i.op = true) : LengthValid i ↔ i.len.toNat ≤ 65535 := by
  simp [LengthValid, hop]

/-- Every request gives some status: that of the first check it fails, or `OK`. -/
theorem exists_givesStatus (i : Instr) : ∃ st, GivesStatus i st := by
  by_cases hvc : i.vc.toNat ≤ 3
  case neg => exact ⟨.invalidChannel, not_le.1 hvc⟩
  by_cases hlen : LengthValid i
  case neg =>
    cases hop : i.op with
    | false => exact ⟨.invalidLength, hop, hvc, mt (lengthValid_of_short hop).2 hlen⟩
    | true => exact ⟨.payloadTooLarge, hop, hvc, not_le.1 (mt (lengthValid_of_long hop).2 hlen)⟩
  by_cases hcap : packetSize i ≤ i.cap.toNat
  case neg => exact ⟨.bufferTooSmall, hvc, hlen, not_le.1 hcap⟩
  exact ⟨.ok, hvc, hlen, hcap⟩

/-- The checks compute the status a request's arguments give. -/
theorem answerStatus_of_givesStatus {i : Instr} {st : Status} (h : GivesStatus i st) : answerStatus i = st := by
  cases st with
  | ok => simp [answerStatus, argError_eq_none_iff.2 h]
  | invalidChannel => simp [answerStatus, argError_of_channel h]
  | invalidLength =>
    obtain ⟨hop, hvc, hlen⟩ := h
    simp [answerStatus, argError_of_length hvc (mt (lengthValid_of_short hop).1 hlen), hop]
  | payloadTooLarge =>
    obtain ⟨hop, hvc, hlen⟩ := h
    simp [answerStatus, argError_of_length hvc (mt (lengthValid_of_long hop).1 (not_le.2 hlen)), hop]
  | bufferTooSmall =>
    obtain ⟨hvc, hlen, hcap⟩ := h
    simp [answerStatus, argError_of_capacity hvc hlen hcap]

/-- The checks compute exactly the status a request's arguments give: they give one (`exists_givesStatus`), and it is the one
computed. -/
theorem answerStatus_eq_iff {i : Instr} {st : Status} : answerStatus i = st ↔ GivesStatus i st := by
  refine ⟨?_, answerStatus_of_givesStatus⟩
  rintro rfl
  obtain ⟨st, hst⟩ := exists_givesStatus i
  rwa [answerStatus_of_givesStatus hst]

/-- The response of an answered request: the status the checks compute, and its length. -/
theorem exec_next_response {i : Instr} {s t : State} (h : exec i s = .next t) :
    t.response = some ⟨answerStatus i, responseLength i (answerStatus i)⟩ := by
  rcases exec_next h with ⟨e, he, rfl⟩ | ⟨f, hf, -, -, rfl⟩
  · have hne : e ≠ .ok := fun hok => argError_ne_ok i (hok ▸ he)
    have hst : answerStatus i = e := by simp [answerStatus, he]
    rw [hst, responseLength, if_neg hne, raise_response]
  · obtain ⟨ha, rfl⟩ := footprint_eq_some hf
    rw [answerStatus_of_givesStatus (st := .ok) ha]
    rfl

/-- An answered request answers with a status exactly if its arguments give that status. -/
theorem exec_next_response_iff {i : Instr} {s t : State} (h : exec i s = .next t) (st : Status) :
    t.response = some ⟨st, responseLength i st⟩ ↔ GivesStatus i st := by
  rw [exec_next_response h, ← answerStatus_eq_iff]
  refine ⟨fun heq => congrArg Response.status (Option.some.inj heq), ?_⟩
  rintro rfl
  rfl

/-- R63: the packet size of an accepted request fits in 32 bits, as its `CAP` does. -/
theorem toNat_responseLength_ok {i : Instr} (ha : Accepted i) : (responseLength i .ok).toNat = packetSize i :=
  have ⟨_, _, hcap⟩ := ha
  Nat.mod_eq_of_lt (hcap.trans_lt i.cap.isLt)

/-- R100: the codes are 0 to 4. -/
theorem code_lt_five (st : Status) : st.code.toNat < 5 := by
  cases st <;> decide

/-- Settles O32: the response has the status the checks compute (`exec_next_response`), and each clause is
`exec_next_response_iff` for one status. -/
theorem responseStatusFollowsThePriority : Obligations.ResponseStatusFollowsThePriority := by
  refine ⟨⟨rfl, rfl, rfl, rfl, rfl, code_lt_five⟩, fun i s t h => ⟨?shape,
    exec_next_response_iff h .invalidChannel, exec_next_response_iff h .invalidLength,
    exec_next_response_iff h .payloadTooLarge, exec_next_response_iff h .bufferTooSmall, exec_next_response_iff h .ok⟩⟩
  case shape =>
    refine ⟨_, _, exec_next_response h, fun hok => ?_, fun hne => if_neg hne⟩
    rw [hok]
    exact toNat_responseLength_ok (answerStatus_eq_iff.1 hok)

/-- Settles O33: a request that fails a check has an argument error, which it raises on every state (`exec_of_argError`). -/
theorem failingRequestTouchesNoMemory : Obligations.FailingRequestTouchesNoMemory := by
  intro i hna
  obtain ⟨e, he, hne⟩ := argError_of_not_accepted hna
  exact ⟨e, hne, exec_of_argError he⟩

end Sys2Proof.Machine
end

section
/-! SUPPORT. The encoder (spec/30_encoding.md R53): the command word as a number and under the mask of R47, the round trips
with the decoder, and the listed words; and that a capacity that is enough is all the same (R44). -/

namespace Sys2Proof

/-- R53: `CMD = (ct << 16) | (vc << 8) | op` as a number: the three fields do not meet. -/
theorem toNat_encodeCmd (op : Bool) (vc ct : Byte) :
    (encodeCmd op vc ct).toNat = ct.toNat * 2 ^ 16 + vc.toNat * 2 ^ 8 + op.toNat := by
  have hct : (ct.setWidth 32 <<< 16).toNat = ct.toNat <<< 16 := by
    simp only [BitVec.toNat_shiftLeft, BitVec.toNat_setWidth, Nat.shiftLeft_eq]; omega
  have hvc : (vc.setWidth 32 <<< 8).toNat = vc.toNat <<< 8 := by
    simp only [BitVec.toNat_shiftLeft, BitVec.toNat_setWidth, Nat.shiftLeft_eq]; omega
  have hbit : ((BitVec.ofBool op).setWidth 32).toNat = op.toNat := by cases op <;> rfl
  have hlow : vc.toNat <<< 8 + op.toNat < 2 ^ 16 := by
    have := op.toNat_lt; rw [Nat.shiftLeft_eq]; omega
  have hop : op.toNat < 2 ^ 8 := op.toNat_lt.trans (by decide)
  calc (encodeCmd op vc ct).toNat
    _ = ct.toNat <<< 16 ||| (vc.toNat <<< 8 ||| op.toNat) := by
      rw [encodeCmd, BitVec.toNat_or, BitVec.toNat_or, hct, hvc, hbit, Nat.or_assoc]
    _ = ct.toNat * 2 ^ 16 + vc.toNat * 2 ^ 8 + op.toNat := by
      rw [← Nat.shiftLeft_add_eq_or_of_lt hop, ← Nat.shiftLeft_add_eq_or_of_lt hlow, Nat.shiftLeft_eq, Nat.shiftLeft_eq,
        Nat.add_assoc]

/-- R41, R53: `op`, `vc` and `ct` of an encoded instruction are the instruction's. -/
theorem fields_encode (i : Instr) :
    (encode i).op = i.op ∧ (encode i).vc = i.vc ∧ (encode i).ct = i.ct := by
  have hcmd : (encode i).cmd.toNat = i.ct.toNat * 2 ^ 16 + i.vc.toNat * 2 ^ 8 + i.op.toNat := toNat_encodeCmd _ _ _
  have hop := i.op.toNat_lt
  refine ⟨?op, BitVec.eq_of_toNat_eq ?vc, BitVec.eq_of_toNat_eq ?ct⟩
  case op =>
    rw [Request.op_eq, hcmd]
    cases i.op <;> simp <;> omega
  case vc => rw [Request.toNat_vc, hcmd]; omega
  case ct => rw [Request.toNat_ct, hcmd]; omega

/-- An encoded instruction asks for the instruction. -/
theorem instr_encode (i : Instr) : (encode i).instr = i := by
  obtain ⟨hop, hvc, hct⟩ := fields_encode i
  rw [Request.instr, hop, hvc, hct]
  cases i <;> rfl

/-- Settles O2: the encoded words decode by their fields, which are the instruction's (`instr_encode`). -/
theorem decodeOfEncodeGivesInstruction : Obligations.DecodeOfEncodeGivesInstruction := by
  intro addrW i hwf
  have hq : (encode i).wf addrW = true := hwf
  rw [Machine.decode_of_wf hq, instr_encode]

/-- R41, R47: the command word made of a request's fields is the request's with its reserved bits cleared, bit by bit. -/
theorem encodeCmd_fields (q : Request) : encodeCmd q.op q.vc q.ct = q.cmd &&& 0x00FFFF01 := by
  ext k hk
  simp only [encodeCmd, Request.op, Request.vc, Request.ct, BitVec.getElem_and, BitVec.getElem_or, BitVec.getElem_shiftLeft,
    BitVec.getElem_setWidth]
  interval_cases k <;> simp

/-- The encoder writes the fields of the operation a request asks for. -/
theorem encode_instr (q : Request) : encode q.instr = { q with cmd := encodeCmd q.op q.vc q.ct } := by
  cases hop : q.op <;>
    simp [Request.instr, encode, hop, Instr.op, Instr.vc, Instr.ct, Instr.len, Instr.cap, Instr.src, Instr.dst]

/-- Settles O3: what was decoded is the operation the request asks for, and its fields encode to the masked command word. -/
theorem encodeOfDecodeClearsReservedBits : Obligations.EncodeOfDecodeClearsReservedBits := by
  intro addrW q i h
  obtain ⟨rfl, -, -⟩ := Machine.decode_eq_ok h
  rw [encode_instr, encodeCmd_fields]

/-- Settles O4: the command word as a number (`toNat_encodeCmd`); the three lines are assembled by evaluation. -/
theorem encodingFollowsTheSyntaxRule : Obligations.EncodingFollowsTheSyntaxRule :=
  ⟨fun _ => ⟨toNat_encodeCmd _ _ _, rfl, rfl, rfl, rfl⟩, by decide, by decide, by decide⟩

/-- Settles O5: the five words decode by evaluation. -/
theorem listedCommandWordsDecode : Obligations.ListedCommandWordsDecode := by
  unfold Obligations.ListedCommandWordsDecode
  decide

end Sys2Proof

namespace Sys2Proof.Machine

/-- Operations that differ in their capacity alone have the same outcome if they fail the same check, or none. -/
theorem footprint_congr_cap {i i' : Instr} (he : argError i' = argError i) (hreg : regionsOf i' = regionsOf i) :
    footprint i' = footprint i := by
  by_cases ha : Accepted i
  · have ha' : Accepted i' := argError_eq_none_iff.1 (he.trans (argError_eq_none_iff.2 ha))
    rw [footprint_of_accepted ha, footprint_of_accepted ha', hreg]
  · obtain ⟨e, hei, -⟩ := argError_of_not_accepted ha
    rw [footprint_eq_none_iff.2 ⟨e, hei⟩, footprint_eq_none_iff.2 ⟨e, he.trans hei⟩]

/-- R44: `CAP` is looked at by the capacity check alone, so capacities that are enough raise the same errors. -/
theorem shortError_congr_cap {cap cap' : Word} (h : 4 ≤ cap.toNat) (h' : 4 ≤ cap'.toNat) (vc : Byte) (len : Word) :
    shortError vc len cap' = shortError vc len cap := by
  simp only [shortError, not_lt.2 h, not_lt.2 h', if_false]

/-- The same for `ENCODE_LONG`. -/
theorem longError_congr_cap {cap cap' len : Word} (h : longSize len ≤ cap.toNat) (h' : longSize len ≤ cap'.toNat) (vc : Byte) :
    longError vc len cap' = longError vc len cap := by
  simp only [longError, not_lt.2 h, not_lt.2 h', if_false]

/-- Settles O8: the checks come out alike (`shortError_congr_cap`, `longError_congr_cap`), and regions and packet do not look at
`CAP`. -/
theorem enoughCapacityIsAllTheSame : Obligations.EnoughCapacityIsAllTheSame := by
  intro s dst cap cap' vc ct src len
  refine ⟨fun h h' => ?_, fun h h' => ?_⟩
  · have he : argError (.encodeShort dst cap vc ct src len) = argError (.encodeShort dst cap' vc ct src len) :=
      shortError_congr_cap h' h vc len
    exact exec_congr he (footprint_congr_cap he rfl) rfl s
  · have he : argError (.encodeLong dst cap vc ct src len) = argError (.encodeLong dst cap' vc ct src len) :=
      longError_congr_cap h' h vc
    exact exec_congr he (footprint_congr_cap he rfl) rfl s

end Sys2Proof.Machine
end

section
/-! SUPPORT. The canonical form of memory (spec/20_memory.md section 1) determines the list by what it reads. -/

namespace Sys2Proof.Machine.Memory

/-- The first cell of a canonical memory is the lowest address that does not read as blank, so one that reads alike begins no
higher. -/
theorem head_le_of_reads_alike {c d : Host.Cell} {m m' : Memory} (hm : Memory.wf (c :: m)) (hm' : Memory.wf (d :: m'))
    (h : ∀ a, Memory.read (c :: m) a = Memory.read (d :: m') a) : d.1 ≤ c.1 := by
  by_contra hlt
  obtain ⟨-, hne, -⟩ := wf_cons.1 hm
  obtain ⟨hrise, -, -⟩ := wf_cons.1 hm'
  have hblank : Memory.read (d :: m') c.1 = Config.blankByte := by
    refine read_of_not_listed fun e he => ?_
    rcases List.mem_cons.1 he with rfl | he
    · omega
    · have := hrise e he; omega
  exact hne (by rw [← hblank, ← h c.1, read_cons, if_pos rfl])

/-- In a canonical memory the address of the first cell is listed once. -/
theorem read_tail_head {c : Host.Cell} {m : Memory} (hm : Memory.wf (c :: m)) : m.read c.1 = Config.blankByte :=
  read_of_not_listed fun d hd => ((wf_cons.1 hm).1 d hd).ne'

/-- A canonical memory that reads as blank everywhere lists nothing. -/
theorem eq_nil_of_reads_blank {m : Memory} (hm : m.wf) (h : ∀ a, m.read a = Config.blankByte) : m = [] := by
  cases m with
  | nil => rfl
  | cons c m =>
    obtain ⟨-, hne, -⟩ := wf_cons.1 hm
    exact absurd (by rw [← h c.1, read_cons, if_pos rfl]) hne

/-- Canonical memories that read alike list the same cells, one after the other. -/
theorem eq_of_reads_alike {m m' : Memory} (hm : m.wf) (hm' : m'.wf) (h : ∀ a, m.read a = m'.read a) : m = m' := by
  induction m generalizing m' with
  | nil => exact (eq_nil_of_reads_blank hm' fun a => (h a).symm).symm
  | cons c m ih =>
    cases m' with
    | nil => exact eq_nil_of_reads_blank hm h
    | cons d m' =>
      have haddr : c.1 = d.1 :=
        le_antisymm (head_le_of_reads_alike hm' hm fun a => (h a).symm) (head_le_of_reads_alike hm hm' h)
      have hbyte : c.2 = d.2 := by simpa [read_cons, haddr] using h c.1
      obtain rfl : c = d := Prod.ext haddr hbyte
      have htail : ∀ a, Memory.read m a = Memory.read m' a := fun a => by
        by_cases ha : c.1 = a
        · rw [← ha, read_tail_head hm, read_tail_head hm']
        · simpa [read_cons, ha] using h a
      rw [ih (wf_cons.1 hm).2.2 (wf_cons.1 hm').2.2 htail]

/-- Settles O10: `eq_of_reads_alike`. -/
theorem canonicalMemoriesReadingAlikeAreEqual : Obligations.CanonicalMemoriesReadingAlikeAreEqual :=
  fun _ _ => eq_of_reads_alike

end Sys2Proof.Machine.Memory
end

section
/-! SUPPORT. HeaderECC as a linear map (spec/41_header_ecc.md R72 to R76): each bit of it is an XOR of listed header bits, which
the masks and the columns list once more. -/

namespace Sys2Proof.Machine

/-- The XOR of listed bits is linear. -/
theorem xorOf_xor (d e : BitVec 24) (l : List Nat) : xorOf (d ^^^ e) l = (xorOf d l ^^ xorOf e l) := by
  induction l with
  | nil => rfl
  | cons i l ih =>
    simp only [xorOf, List.foldr_cons, BitVec.getLsbD_xor] at ih ⊢
    rw [ih, Bool.xor_assoc, Bool.xor_assoc, Bool.xor_left_comm (e.getLsbD i)]

/-- Under a mask only the listed bits of the mask count. -/
theorem xorOf_and (d m : BitVec 24) (l : List Nat) : xorOf (d &&& m) l = xorOf d (l.filter fun i => m.getLsbD i) := by
  induction l with
  | nil => rfl
  | cons i l ih =>
    simp only [xorOf, List.foldr_cons, BitVec.getLsbD_and] at ih ⊢
    cases h : m.getLsbD i <;> simp [h, ih]

/-- R74: bit `k` of an XOR of columns is the XOR of the header bits whose column has bit `k`. -/
theorem getLsbD_xor_columns (d : BitVec 24) (column : Nat → Byte) (l : List Nat) (k : Nat) :
    (l.foldr (fun i acc => (if d.getLsbD i then column i else 0) ^^^ acc) 0).getLsbD k
      = xorOf d (l.filter fun i => (column i).getLsbD k) := by
  induction l with
  | nil => simp [xorOf]
  | cons i l ih =>
    rw [List.foldr_cons, BitVec.getLsbD_xor, ih]
    cases h : (column i).getLsbD k <;> cases hd : d.getLsbD i <;> simp [xorOf, h, hd]

/-- The equation of bit `k` of the ECC (R72); bits 6 and 7 have none (R73). `getLsbD_eccOf` ties it to `eccOf`. -/
def eccEquation (k : Nat) : List Nat := [p0Bits, p1Bits, p2Bits, p3Bits, p4Bits, p5Bits].getD k []

/-- R72, R73: the bits of the ECC are the parity equations. -/
theorem getLsbD_eccOf (d : BitVec 24) {k : Nat} (hk : k < 8) : (eccOf d).getLsbD k = xorOf d (eccEquation k) := by
  simp only [eccOf, BitVec.getLsbD_append, BitVec.getLsbD_ofBool]
  interval_cases k <;> simp [eccEquation, xorOf]

/-- Equal ECCs are those that agree in the eight bits. -/
theorem eccOf_eq_of_bits {d : BitVec 24} {b : Byte} (h : ∀ k, k < 8 → xorOf d (eccEquation k) = b.getLsbD k) : eccOf d = b :=
  BitVec.eq_of_getLsbD_eq fun k hk => (getLsbD_eccOf d hk).trans (h k hk)

/-- R72: each mask has the bits its equation lists, and no seventh or eighth mask has any. -/
theorem eccEquation_eq_mask {k : Nat} (hk : k < 8) :
    (List.range 24).filter (fun i => (eccMasks.getD k 0).getLsbD i) = eccEquation k := by
  interval_cases k <;> decide

/-- R74: the columns transpose the equations. -/
theorem eccEquation_eq_columns {k : Nat} (hk : k < 8) :
    (List.range 24).filter (fun i => (eccColumns.getD i 0).getLsbD k) = eccEquation k := by
  interval_cases k <;> decide

/-- Settles O21: bit `k` is its equation, and its equation lists the bits of its mask. -/
theorem eccMasksGiveTheParityEquations : Obligations.EccMasksGiveTheParityEquations := by
  intro b0 b1 b2 k hk
  rw [headerEcc, getLsbD_eccOf _ hk, parity, xorOf_and, eccEquation_eq_mask hk]

/-- Settles O22: bit by bit, the columns list what the equations list. -/
theorem eccColumnsGiveTheSameCode : Obligations.EccColumnsGiveTheSameCode := by
  intro d
  refine eccOf_eq_of_bits fun k hk => ?_
  rw [eccByColumns, getLsbD_xor_columns, eccEquation_eq_columns hk]

/-- R76: the ECC is linear, since each of its bits is. -/
theorem eccOf_xor (d e : BitVec 24) : eccOf (d ^^^ e) = eccOf d ^^^ eccOf e := by
  refine eccOf_eq_of_bits fun k hk => ?_
  rw [xorOf_xor, BitVec.getLsbD_xor, getLsbD_eccOf d hk, getLsbD_eccOf e hk]

/-- R73: the two top bits of the ECC are zero. -/
theorem toNat_eccOf_lt (d : BitVec 24) : (eccOf d).toNat < 0x40 := by
  refine Nat.lt_pow_two_of_testBit (n := 6) _ fun k hk => ?_
  by_cases hk8 : k < 8
  · have htop : eccEquation k = [] := by interval_cases k <;> rfl
    exact (getLsbD_eccOf d hk8).trans (by rw [htop]; rfl)
  · exact BitVec.getLsbD_of_ge _ _ (not_lt.1 hk8)

/-- Settles O23: linearity and the bound bit by bit; the examples by evaluation. -/
theorem eccIsLinear : Obligations.EccIsLinear :=
  ⟨eccOf_xor, toNat_eccOf_lt, by decide, by decide, by decide, by decide⟩

/-- R74: the ECC of a header with one bit set is the column of the bit. -/
theorem eccOf_twoPow : ∀ i, i < 24 → eccOf (BitVec.twoPow 24 i) = eccColumns.getD i 0 := by decide

/-- R74: flipping one header bit changes the ECC by the column of the bit. -/
theorem eccOf_flip (d : BitVec 24) {i : Nat} (hi : i < 24) :
    eccOf (d ^^^ BitVec.twoPow 24 i) = eccOf d ^^^ eccColumns.getD i 0 := by
  rw [eccOf_xor, eccOf_twoPow i hi]

/-- R74: the columns are pairwise different, and none of them is zero or a single bit. -/
theorem eccColumns_distinct : ∀ i, i < 24 → ∀ j, j < 24 → eccColumns.getD i 0 = eccColumns.getD j 0 → i = j := by decide

theorem eccColumns_ne_zero : ∀ i, i < 24 → eccColumns.getD i 0 ≠ 0 := by decide

theorem eccColumns_ne_twoPow : ∀ i, i < 24 → ∀ k, k < 8 → eccColumns.getD i 0 ≠ BitVec.twoPow 8 k := by decide

/-- Settles O24: by linearity the change is the column of the flipped bit (`eccOf_flip`), and the columns are pairwise different,
not zero, and no single bit. -/
theorem eccLocatesASingleFlippedBit : Obligations.EccLocatesASingleFlippedBit := by
  intro d i j hi hj
  refine ⟨fun h => ?_, fun h => ?_, fun k hk h => ?_⟩
  · rw [eccOf_flip d hi, eccOf_flip d hj, BitVec.xor_right_inj] at h
    exact eccColumns_distinct i hi j hj h
  · rw [eccOf_flip d hi, ← BitVec.xor_zero (x := eccOf d), BitVec.xor_assoc, BitVec.xor_right_inj, BitVec.zero_xor] at h
    exact eccColumns_ne_zero i hi h
  · rw [eccOf_flip d hi, BitVec.xor_right_inj] at h
    exact eccColumns_ne_twoPow i hi k hk h

end Sys2Proof.Machine
end

section
/-! SUPPORT. PayloadChecksum as the eight bit steps of spec/10_state.md R14 (spec/42_payload_checksum.md R84, R85), its seed
(90_conflicts.md C1), and the golden packet of Scenario 3. -/

namespace Sys2Proof.Machine

/-- R14: a bit step is linear. -/
theorem crcBit_xor (c d : Half) : crcBit (c ^^^ d) = crcBit c ^^^ crcBit d := by
  cases hc : c.getLsbD 0 <;> cases hd : d.getLsbD 0 <;>
    simp only [crcBit, BitVec.getLsbD_xor, hc, hd, BitVec.ushiftRight_xor_distrib, Bool.xor_false, Bool.false_xor, Bool.xor_self,
      if_true, if_false, Bool.false_eq_true]
  · ac_rfl
  · ac_rfl
  · calc c >>> 1 ^^^ d >>> 1
      _ = c >>> 1 ^^^ d >>> 1 ^^^ (0x8408 ^^^ 0x8408) := by rw [BitVec.xor_self, BitVec.xor_zero]
      _ = c >>> 1 ^^^ 0x8408 ^^^ (d >>> 1 ^^^ 0x8408) := by ac_rfl

/-- R14: eight bit steps are linear. -/
theorem crcBits8_xor (c d : Half) : crcBits8 (c ^^^ d) = crcBits8 c ^^^ crcBits8 d := by
  simp only [crcBits8, crcBit_xor]

/-- R14: a bit step on a value whose bit 0 is clear only shifts. -/
theorem crcBit_of_even {c : Half} (h : c.getLsbD 0 = false) : crcBit c = c >>> 1 := by
  rw [crcBit, h]; rfl

/-- R14: eight bit steps on a value whose eight low bits are clear only shift. -/
theorem crcBits8_of_low_clear {c : Half} (h : ∀ k, k < 8 → c.getLsbD k = false) : crcBits8 c = c >>> 8 := by
  have hstep (k : Nat) (hk : k < 8) : crcBit (c >>> k) = c >>> (k + 1) := by
    rw [crcBit_of_even (by rw [BitVec.getLsbD_ushiftRight]; exact h _ (by omega)), ← BitVec.shiftRight_add]
  calc crcBits8 c
    _ = crcBits8 (c >>> 0) := by rw [BitVec.ushiftRight_zero]
    _ = c >>> 8 := by simp only [crcBits8, hstep, Nat.reduceLT, Nat.reduceAdd]

set_option maxRecDepth 4000 in
/-- R14, R15: the table transcribed from R15 lists the values of the loop of R14. -/
theorem romTable_eq_generated : romTable = (List.range 256).map romGenerated := by decide

/-- R14: an entry of ROM is the value the loop generates for its index. -/
theorem rom_eq_generated {i : Nat} (h : i < 256) : rom i = romGenerated i := by
  have hlen : i < ((List.range 256).map romGenerated).length := by simpa using h
  rw [rom, romTable_eq_generated, List.getD_eq_getElem _ _ hlen, List.getElem_map, List.getElem_range]

/-- Settles O26: `romTable_eq_generated`, by evaluation of the loop at each index. -/
theorem checksumTableIsTheGeneratedOne : Obligations.ChecksumTableIsTheGeneratedOne :=
  ⟨by rw [romTable_eq_generated]; simp, fun _ => rom_eq_generated⟩

/-- R14: looking up the low byte of a value and shifting the rest is eight bit steps, by linearity. -/
theorem shift_xor_rom (x : Half) : (x >>> 8) ^^^ rom (x &&& 0xFF).toNat = crcBits8 x := by
  have hlow : (x &&& 0xFF).toNat < 256 := by
    rw [BitVec.toNat_and]; exact Nat.and_le_right.trans_lt (by decide)
  have hhigh : crcBits8 (x ^^^ (x &&& 0xFF)) = x >>> 8 := by
    have hones : ∀ k, k < 8 → (0xFF : Half).getLsbD k = true := by decide
    have hgone : (0xFF : Half) >>> 8 = 0#16 := by decide
    rw [crcBits8_of_low_clear fun k hk => by
      rw [BitVec.getLsbD_xor, BitVec.getLsbD_and, hones k hk, Bool.and_true, Bool.xor_self]]
    rw [BitVec.ushiftRight_xor_distrib, BitVec.ushiftRight_and_distrib, hgone, BitVec.and_zero, BitVec.xor_zero]
  calc (x >>> 8) ^^^ rom (x &&& 0xFF).toNat
    _ = crcBits8 (x ^^^ (x &&& 0xFF)) ^^^ crcBits8 (x &&& 0xFF) := by
      rw [hhigh, rom_eq_generated hlow, romGenerated, BitVec.ofNat_toNat, BitVec.setWidth_eq]
    _ = crcBits8 x := by rw [← crcBits8_xor, BitVec.xor_assoc, BitVec.xor_self, BitVec.xor_zero]

/-- A byte lies in the low half of 16 bits. -/
theorem xor_byte_shift (c : Half) (b : Byte) : (c ^^^ b.setWidth 16) >>> 8 = c >>> 8 := by
  have hb : b.setWidth 16 >>> 8 = 0#16 := by
    refine BitVec.eq_of_toNat_eq ?_
    rw [BitVec.toNat_ushiftRight, BitVec.toNat_setWidth, Nat.shiftRight_eq_div_pow]
    show _ = 0
    omega
  rw [BitVec.ushiftRight_xor_distrib, hb, BitVec.xor_zero]

/-- R84: the update for one byte by the table is the eight bit steps. -/
theorem crcByte_eq_crcBits8 (c : Half) (b : Byte) : crcByte c b = crcBits8 (c ^^^ b.setWidth 16) := by
  rw [← shift_xor_rom, xor_byte_shift, crcByte]

/-- Settles O28: the two loops perform the same update for each byte (`crcByte_eq_crcBits8`). -/
theorem bitwiseChecksumIsTheTableChecksum : Obligations.BitwiseChecksumIsTheTableChecksum := by
  intro p
  have hupdate : crcByte = fun c b => crcBits8 (c ^^^ b.setWidth 16) := funext₂ crcByte_eq_crcBits8
  rw [payloadChecksum, crcFrom, crcBitwiseFrom, hupdate, crcSeed]

/-- Settles O29: the loop goes on over an appended payload (`crcFrom_append`); the listed values by evaluation. -/
theorem checksumContinuesOverAppend : Obligations.ChecksumContinuesOverAppend :=
  ⟨crcFrom_append crcSeed, by decide, by decide, by decide, by decide⟩

/-- R14: bit 15 after a bit step is bit 0 before it, since 0x8408 has bit 15 and the shift clears it. -/
theorem getLsbD_crcBit_top (c : Half) : (crcBit c).getLsbD 15 = c.getLsbD 0 := by
  unfold crcBit
  cases c.getLsbD 0 <;> simp

/-- R14: a bit step loses nothing: a value that it takes to zero was zero. -/
theorem eq_zero_of_crcBit {c : Half} (h : crcBit c = 0) : c = 0 := by
  have hlow : c.getLsbD 0 = false := by rw [← getLsbD_crcBit_top, h]; rfl
  refine BitVec.eq_of_getLsbD_eq fun k hk => ?_
  cases k with
  | zero => simpa using hlow
  | succ k =>
    rw [crcBit_of_even hlow] at h
    have := congrArg (fun x => BitVec.getLsbD x k) h
    simpa [BitVec.getLsbD_ushiftRight, Nat.add_comm] using this

/-- R14: a bit step is injective, by linearity. -/
theorem crcBit_injective : Function.Injective crcBit := fun c d h =>
  BitVec.xor_eq_zero_iff.1 (eq_zero_of_crcBit (by rw [crcBit_xor, h, BitVec.xor_self]; rfl))

/-- The update for one byte is a bijection of the value reached so far. -/
theorem crcByte_bijective (b : Byte) : Function.Bijective fun c => crcByte c b := by
  refine Finite.injective_iff_bijective.1 fun c d h => ?_
  simp only [crcByte_eq_crcBits8, crcBits8, crcBit_injective.eq_iff, BitVec.xor_left_inj] at h
  exact h

/-- C1: for a fixed payload the loop is a bijection of the seed, one update after the other. -/
theorem crcFrom_bijective (p : List Byte) : Function.Bijective fun seed => crcFrom seed p := by
  induction p with
  | nil => exact Function.bijective_id
  | cons b p ih => exact ih.comp (crcByte_bijective b)

set_option maxRecDepth 4000 in
/-- C1: the checksum of Scenario 3's payload. -/
theorem payloadChecksum_scenario3 : payloadChecksum scenario3Payload = 0x0365 := by decide

set_option maxRecDepth 4000 in
/-- C1: with the seed 0x0000 the same payload has another checksum. -/
theorem crcFrom_zero_scenario3 : crcFrom 0x0000 scenario3Payload = 0x580E := by decide

/-- Settles O30: the loop is a bijection of the seed (`crcFrom_bijective`), and 0xFFFF is one seed with the golden checksum. -/
theorem checksumIsABijectionOfItsSeed : Obligations.ChecksumIsABijectionOfItsSeed := by
  refine ⟨crcFrom_bijective, fun seed => ?_⟩
  rw [← payloadChecksum_scenario3]
  exact (crcFrom_bijective scenario3Payload).injective.eq_iff

/-- Settles O14: the checksums by evaluation; the request is accepted, and its packet is that of R62's example. -/
theorem goldenLongPacketOfScenario3 : Obligations.GoldenLongPacketOfScenario3 := by
  refine ⟨payloadChecksum_scenario3, crcFrom_zero_scenario3, fun s dst cap src hcap hd ha hp => ?_⟩
  have haccepted : Accepted (.encodeLong dst cap 0 0x39 src 64) := ⟨Nat.zero_le 3, Nat.le_of_ble_eq_true rfl, hcap⟩
  rw [← longPacket_example payloadChecksum_scenario3, ← hp]
  exact exec_of_accepted haccepted hd ha

end Sys2Proof.Machine
end

section
/-! SUPPORT. `exec` in one equation: it answers exactly the answerable requests, with one memory and one response
(spec/20_memory.md R30, R38; spec/60_exceptions.md R105, R107); where it faults; and the source bytes a packet byte is made of. -/

namespace Sys2Proof.Machine

/-- The response of an answered operation: the status the checks compute, and its length. -/
def answer (i : Instr) : Response := ⟨answerStatus i, responseLength i (answerStatus i)⟩

/-- The memory an answered operation leaves: its packet at `DST` if it is accepted. -/
def memAfter (i : Instr) (m : Memory) : Memory :=
  if Accepted i then m.writeAll i.dst (packetOf i (m.readAll i.src i.len.toNat)) else m

/-- The state an answered operation leaves. `exec_eq_next_iff` ties it to `exec`. -/
def answered (i : Instr) (s : State) : State :=
  { s with mem := memAfter i s.mem, response := some (answer i), inFlight := none }

/-- R101 to R104: the status is `OK` exactly for an accepted request. -/
theorem answer_status_ok_iff {i : Instr} : (answer i).status = .ok ↔ Accepted i := answerStatus_eq_iff

/-- R63: with `OK` the length is the packet size. -/
theorem answer_length_of_ok {i : Instr} (h : (answer i).status = .ok) : (answer i).length.toNat = packetSize i := by
  have hst : answerStatus i = .ok := h
  rw [answer, hst]
  exact toNat_responseLength_ok (answerStatus_eq_iff.1 hst)

/-- R105: with an error the length is 0. -/
theorem answer_length_of_error {i : Instr} (h : (answer i).status ≠ .ok) : (answer i).length = 0 := if_neg h

/-- The answer of an accepted request. -/
theorem answer_of_accepted {i : Instr} (ha : Accepted i) : answer i = ⟨.ok, BitVec.ofNat 32 (packetSize i)⟩ := by
  have hst : answerStatus i = .ok := answerStatus_eq_iff.2 ha
  rw [answer, hst]
  rfl

/-- The answer of a request that fails an argument check. -/
theorem answer_of_argError {i : Instr} {e : Status} (h : argError i = some e) : answer i = ⟨e, 0⟩ := by
  have hst : answerStatus i = e := by simp [answerStatus, h]
  have hne : e ≠ .ok := fun hok => argError_ne_ok i (hok ▸ h)
  rw [answer, hst, responseLength, if_neg hne]

theorem memAfter_of_accepted {i : Instr} (ha : Accepted i) (m : Memory) :
    memAfter i m = m.writeAll i.dst (packetOf i (m.readAll i.src i.len.toNat)) := if_pos ha

/-- R105: a request that fails a check leaves memory as it was. -/
theorem memAfter_of_not_accepted {i : Instr} (ha : ¬ Accepted i) (m : Memory) : memAfter i m = m := if_neg ha

/-- A request that fails an argument check has no regions. -/
theorem footprint_of_not_accepted {i : Instr} (ha : ¬ Accepted i) : footprint i = none :=
  footprint_eq_none_iff.2 ((argError_of_not_accepted ha).imp fun _ h => h.1)

/-- What is asked of an answerable request, in terms of its operands. -/
theorem answerable_iff {s : State} {i : Instr} :
    Answerable s i ↔ (Accepted i → (regionsOf i).Defined s.addrW ∧ (regionsOf i).Admitted s) := by
  refine ⟨fun h ha => h _ (footprint_of_accepted ha), fun h f hf => ?_⟩
  obtain ⟨ha, rfl⟩ := footprint_eq_some hf
  exact h ha

/-- An answerable request is answered. -/
theorem exec_of_answerable {i : Instr} {s : State} (h : Answerable s i) : exec i s = .next (answered i s) := by
  by_cases ha : Accepted i
  · obtain ⟨hd, had⟩ := answerable_iff.1 h ha
    rw [exec_of_accepted ha hd had, answered, memAfter_of_accepted ha, answer_of_accepted ha]
  · obtain ⟨e, he, -⟩ := argError_of_not_accepted ha
    rw [exec_of_argError he, answered, memAfter_of_not_accepted ha, answer_of_argError he]
    rfl

/-- `exec` answers exactly the answerable requests, with one next state. -/
theorem exec_eq_next_iff {i : Instr} {s t : State} : exec i s = .next t ↔ Answerable s i ∧ t = answered i s := by
  constructor
  · intro h
    have hans : Answerable s i := by
      rcases exec_next h with ⟨e, he, -⟩ | ⟨f, hf, hd, had, -⟩
      · intro f hf
        rw [footprint_eq_none_iff.2 ⟨e, he⟩] at hf
        cases hf
      · intro g hg
        cases hf.symm.trans hg
        exact ⟨hd, had⟩
    rw [exec_of_answerable hans, Host.Outcome.next.injEq] at h
    exact ⟨hans, h.symm⟩
  · rintro ⟨hans, rfl⟩
    exact exec_of_answerable hans

/-- Settles O18: `exec_eq_next_iff`. -/
theorem execAnswersExactlyTheAnswerable : Obligations.ExecAnswersExactlyTheAnswerable :=
  fun _ _ => ⟨fun ⟨_, h⟩ => (exec_eq_next_iff.1 h).1, fun h => ⟨_, exec_of_answerable h⟩⟩

/-- The packet of an accepted request has its size. -/
theorem length_packetOf_readAll {i : Instr} (ha : Accepted i) (m : Memory) :
    (packetOf i (m.readAll i.src i.len.toNat)).length = packetSize i := length_packetOf (footprint_of_accepted ha) m

/-- R38: an operation spares an address that lies outside its destination region; one that fails a check has none. -/
abbrev Spares (i : Instr) (a : Nat) : Prop := Accepted i → a < i.dst ∨ i.dst + packetSize i ≤ a

/-- The addresses an operation does not spare are those of an accepted one's destination region. -/
theorem not_spares_iff {i : Instr} {a : Nat} : ¬ Spares i a ↔ Accepted i ∧ i.dst ≤ a ∧ a < i.dst + packetSize i := by
  rw [Spares, Classical.not_imp]
  exact and_congr_right fun _ => by omega

/-- R38: an answered operation writes no byte outside its destination region. -/
theorem read_memAfter_kept {i : Instr} {a : Nat} (h : Spares i a) (m : Memory) :
    (memAfter i m).read a = m.read a := by
  by_cases ha : Accepted i
  · rw [memAfter_of_accepted ha]
    exact Memory.read_writeAll_outside (by rw [length_packetOf_readAll ha]; exact h ha)
  · rw [memAfter_of_not_accepted ha]

/-- R61, R62: an answered operation leaves its packet at `DST`. -/
theorem read_memAfter_packet {i : Instr} {m : Memory} (ha : Accepted i) (hm : m.wf) {k : Nat} (hk : k < packetSize i) :
    (memAfter i m).read (i.dst + k) = (packetOf i (m.readAll i.src i.len.toNat)).getD k 0 := by
  have hlen := hk.trans_eq (length_packetOf_readAll ha m).symm
  rw [memAfter_of_accepted ha, List.getD_eq_getElem _ _ hlen]
  exact Memory.read_writeAll_inside hm hlen

/-- An answered operation keeps memory canonical. -/
theorem wf_memAfter {m : Memory} (hm : m.wf) (i : Instr) : (memAfter i m).wf := by
  by_cases ha : Accepted i
  · rw [memAfter_of_accepted ha]; exact Memory.wf_writeAll hm _ _
  · rwa [memAfter_of_not_accepted ha]

/-- An address outside the destination region of an operation's operands. -/
theorem outside_of_inDst_false {i : Instr} {a : Nat} (h : (regionsOf i).inDst a = false) :
    a < i.dst ∨ i.dst + packetSize i ≤ a := by
  have hn : ¬ (i.dst ≤ a ∧ a < i.dst + packetSize i) := fun hin => by
    rw [(inDst_iff (regionsOf i) a).2 hin] at h; cases h
  omega

/-- R30: where the regions have a result, a source byte lies outside the destination region. -/
theorem source_outside_dst {i : Instr} {w a : Nat} (hd : (regionsOf i).Defined w) (h1 : i.src ≤ a)
    (h2 : a < i.src + i.len.toNat) : a < i.dst ∨ i.dst + packetSize i ≤ a := by
  obtain ⟨hdisjoint, -, -⟩ := hd
  have hn : ¬ (i.dst ≤ a ∧ a < i.dst + packetSize i) := hdisjoint a h1 h2
  omega

/-- Settles O15: the answered state is `answered i s`, whose memory is kept outside the destination region
(`read_memAfter_kept`), the source region among it (`source_outside_dst`). -/
theorem encodeFrame : Obligations.EncodeFrame := by
  intro i s t h
  obtain ⟨hans, rfl⟩ := exec_eq_next_iff.1 h
  refine ⟨rfl, rfl, rfl, rfl, rfl, rfl, rfl, ⟨_, rfl⟩, fun ha => memAfter_of_not_accepted ha _, fun f a hf hin => ?_,
    fun f a hf hin => ?_⟩
  · obtain ⟨-, rfl⟩ := footprint_eq_some hf
    exact read_memAfter_kept (fun _ => outside_of_inDst_false hin) _
  · obtain ⟨ha, rfl⟩ := footprint_eq_some hf
    obtain ⟨hsrc, hlen⟩ := (inSrc_iff _ a).1 hin
    exact read_memAfter_kept (fun _ => source_outside_dst (answerable_iff.1 hans ha).1 hsrc hlen) _

/-- R30: regions that share no byte and one of which passes the top have no result. -/
theorem refusal_of_passing_top {f : Footprint} {w : Nat}
    (h : ∀ a, f.src ≤ a → a < f.src + f.n → ¬ (f.dst ≤ a ∧ a < f.dst + f.size))
    (htop : 2 ^ w < f.dst + f.size ∨ 2 ^ w < f.src + f.n) : f.refusal w = some .regionPassesTop := by
  have hoverlaps : ¬ f.overlaps = true := fun hov => by
    obtain ⟨hn, hsize, hsrc, hdst⟩ := of_decide_eq_true hov
    exact h (max f.src f.dst) (le_max_left _ _) (by omega) ⟨le_max_right _ _, by omega⟩
  have hpasses : f.passesTop w = true := decide_eq_true htop
  rw [Footprint.refusal, if_neg hoverlaps, if_pos hpasses]

/-- Settles O19: the two refusals of R30, and that a failing request, having no regions, is answerable. -/
theorem undefinedRegionsAreRefused : Obligations.UndefinedRegionsAreRefused := by
  refine fun i s => ⟨fun ha h => exec_of_shared_byte ha s h, fun ha h htop => ?_, fun hna => ?_⟩
  · exact exec_of_refusal (footprint_of_accepted ha) (refusal_of_passing_top (f := regionsOf i) h htop)
  · exact ⟨_, exec_of_answerable (answerable_iff.2 fun ha => absurd ha hna)⟩

/-- Everything a transaction can do when it faults: its regions have a result, and a read of the source region stops, or a
write of the destination region. -/
theorem transact_fault {f : Footprint} {packet : List Byte → List Byte} {s : State} {r : Fault}
    (h : transact f packet s = .fault r) :
    (∃ a, readRegion s f.src f.n = .error a ∧ r = .stuckRead a s) ∨
      ∃ a left, writeRegion s f.dst (packet (s.mem.readAll f.src f.n)) = .error (a, left) ∧ r = .stuckWrite a left := by
  unfold transact at h
  split at h
  · cases h
  · split at h
    · next a hread => cases h; exact .inl ⟨a, hread, rfl⟩
    · next p hread =>
      obtain ⟨rfl, -⟩ := readRegion_eq_ok hread
      split at h
      · next a left hwrite => cases h; exact .inr ⟨a, left, hwrite, rfl⟩
      · cases h

/-- The same of an operation, which is accepted when it faults. -/
theorem exec_fault_region {i : Instr} {s : State} {r : Fault} (h : exec i s = .fault r) :
    Accepted i ∧ ((∃ a, readRegion s i.src i.len.toNat = .error a ∧ r = .stuckRead a s) ∨
      ∃ a left, writeRegion s i.dst (packetOf i (s.mem.readAll i.src i.len.toNat)) = .error (a, left) ∧
        r = .stuckWrite a left) := by
  obtain ⟨f, hf, -, -, -⟩ := exec_fault h
  rw [exec_of_footprint hf] at h
  obtain ⟨ha, rfl⟩ := footprint_eq_some hf
  exact ⟨ha, transact_fault h⟩

/-- R22: a stuck read is one of the source region, and has written nothing. -/
theorem exec_stuckRead {i : Instr} {s left : State} {a : Nat} (h : exec i s = .fault (.stuckRead a left)) :
    Accepted i ∧ i.src ≤ a ∧ a < i.src + i.len.toNat ∧ s.admits .read a = false ∧ left = s := by
  obtain ⟨ha, ⟨_, hread, hr⟩ | ⟨_, _, -, hr⟩⟩ := exec_fault_region h
  · cases hr
    obtain ⟨h1, h2, h3, -⟩ := readRegion_eq_error hread
    exact ⟨ha, h1, h2, h3, rfl⟩
  · cases hr

/-- R23: a stuck write is one of the destination region, the bytes of the packet before it written. -/
theorem exec_stuckWrite {i : Instr} {s left : State} {a : Nat} (h : exec i s = .fault (.stuckWrite a left)) :
    Accepted i ∧ ∃ k, k < packetSize i ∧ a = i.dst + k ∧ s.admits .write a = false ∧
      left = { s with mem := s.mem.writeAll i.dst ((packetOf i (s.mem.readAll i.src i.len.toNat)).take k) } := by
  obtain ⟨ha, ⟨_, -, hr⟩ | ⟨_, _, hwrite, hr⟩⟩ := exec_fault_region h
  · cases hr
  · cases hr
    obtain ⟨k, hk, rfl, hadmits, -, rfl⟩ := writeRegion_eq_error hwrite
    exact ⟨ha, k, hk.trans_eq (length_packetOf_readAll ha _), rfl, hadmits, rfl⟩

/-- The first bytes of a list, written, leave every address from their end on alone, and hold the list's bytes before it. -/
theorem Memory.read_writeAll_take (m : Memory) (a : Nat) {bs : List Byte} {k : Nat} (hk : k ≤ bs.length) :
    (∀ b, b < a ∨ a + k ≤ b → (m.writeAll a (bs.take k)).read b = m.read b) ∧
      (m.wf → ∀ j, j < k → (m.writeAll a (bs.take k)).read (a + j) = bs.getD j 0) := by
  have hlen : (bs.take k).length = k := List.length_take_of_le hk
  refine ⟨fun b hb => Memory.read_writeAll_outside (by rwa [hlen]), fun hm j hj => ?_⟩
  rw [Memory.read_writeAll_inside hm (by rwa [hlen]), List.getElem_take, List.getD_eq_getElem]

/-- Settles O20: where `exec` faults (`exec_stuckRead`, `exec_stuckWrite`), and that it does (`exec_of_not_admitted`). -/
theorem stuckRequestGivesNoResponse : Obligations.StuckRequestGivesNoResponse := by
  refine fun i s => ⟨fun a left h => exec_stuckRead h, fun a left h => ?_, fun ha hd hnad => ?_⟩
  · obtain ⟨ha, k, hk, rfl, hadmits, rfl⟩ := exec_stuckWrite h
    obtain ⟨hkept, hwritten⟩ := Memory.read_writeAll_take s.mem i.dst
      (hk.le.trans_eq (length_packetOf_readAll ha s.mem).symm)
    exact ⟨ha, by omega, by omega, hadmits, rfl, hkept, fun hm j hj => hwritten hm j (by omega)⟩
  · obtain ⟨r, hr⟩ := exec_of_not_admitted (footprint_of_accepted ha) hd hnad
    obtain ⟨-, -, -, -, a, left, rfl | rfl⟩ := exec_fault hr
    · exact ⟨a, left, .inl hr⟩
    · exact ⟨a, left, .inr hr⟩

/-- R50, R51: of a short packet, bytes 1 and 2 are made of the payload byte itself, and the ECC of all of them. -/
theorem dependsOn_short {i : Instr} (hop : i.op = false) (k j : Nat) : dependsOn i k j = true ↔ k = 1 + j ∨ k = 3 := by
  cases i with
  | encodeShort => exact decide_eq_true_iff
  | encodeLong => cases hop

/-- R51: of a long packet, a payload byte is made of itself, and the checksum of all of them. -/
theorem dependsOn_long {i : Instr} (hop : i.op = true) (k j : Nat) :
    dependsOn i k j = true ↔ k = 4 + j ∨ 4 + i.len.toNat ≤ k := by
  cases i with
  | encodeShort => cases hop
  | encodeLong => exact decide_eq_true_iff

/-- Payloads of one length that agree on a byte agree on it beyond their end, too. -/
theorem getD_congr_of_length {p p' : List Byte} (hlen : p.length = p'.length) {j : Nat}
    (h : j < p.length → p.getD j 0 = p'.getD j 0) : p.getD j 0 = p'.getD j 0 := by
  by_cases hj : j < p.length
  · exact h hj
  · rw [List.getD_eq_default _ _ (not_lt.1 hj), List.getD_eq_default _ _ (hlen ▸ not_lt.1 hj)]

/-- R50: the bytes of a short packet, each from the payload bytes it is made of. -/
theorem getD_shortPacket_congr {vc ct : Byte} {p p' : List Byte} {k : Nat} (hk : k < 4)
    (h : ∀ j, k = 1 + j ∨ k = 3 → p.getD j 0 = p'.getD j 0) :
    (shortPacket vc ct p).getD k 0 = (shortPacket vc ct p').getD k 0 := by
  have hcases : k = 0 ∨ k = 1 ∨ k = 2 ∨ k = 3 := by omega
  rcases hcases with rfl | rfl | rfl | rfl
  · rfl
  · exact h 0 (.inl rfl)
  · exact h 1 (.inl rfl)
  · simp only [shortPacket, h 0 (.inr rfl), h 1 (.inr rfl)]

/-- R51: the bytes of a long packet, each from the payload bytes it is made of. -/
theorem getD_longPacket_congr {vc ct : Byte} {len : Word} {p p' : List Byte} (hlen : p.length = p'.length) {k : Nat}
    (h : ∀ j, k = 4 + j ∨ 4 + p.length ≤ k → p.getD j 0 = p'.getD j 0) :
    (longPacket vc ct len p).getD k 0 = (longPacket vc ct len p').getD k 0 := by
  by_cases hheader : k < 4
  · simp only [longPacket, List.append_assoc]
    rw [List.getD_append _ _ _ _ (by simpa using hheader), List.getD_append _ _ _ _ (by simpa using hheader)]
  by_cases hpayload : k < 4 + p.length
  · obtain ⟨j, rfl⟩ := Nat.exists_eq_add_of_le (not_lt.1 hheader)
    have hj : j < p.length := by omega
    have hpacket (p : List Byte) (hj : j < p.length) : (longPacket vc ct len p).getD (4 + j) 0 = p.getD j 0 :=
      packetOf_getD_payload (i := .encodeLong 0 0 vc ct 0 len) rfl hj
    rw [hpacket p hj, hpacket p' (hlen ▸ hj), h j (.inl rfl)]
  · have hsame : p = p' := List.ext_getElem hlen fun j hj hj' => by
      simpa [List.getD_eq_getElem, hj, hj'] using h j (.inr (not_lt.1 hpayload))
    rw [hsame]

/-- Settles O53: the bytes of either packet (`getD_shortPacket_congr`, `getD_longPacket_congr`), and what `dependsOn` says of
them. -/
theorem packetBytesAreMadeOfTheirSourceBytes : Obligations.PacketBytesAreMadeOfTheirSourceBytes := by
  refine ⟨fun i p p' k ha hp hp' hk h => ?same, fun i j ha hj =>
    ⟨fun hop k hk => dependsOn_short hop k j, fun hop k hk => ?long⟩⟩
  case same =>
    have hlen : p.length = p'.length := hp.trans hp'.symm
    have hbyte (j : Nat) (hdep : dependsOn i k j = true) : p.getD j 0 = p'.getD j 0 :=
      getD_congr_of_length hlen fun hj => h j (hp ▸ hj) hdep
    cases i with
    | encodeShort => exact getD_shortPacket_congr hk fun j hj => hbyte j ((dependsOn_short rfl k j).2 hj)
    | encodeLong =>
      exact getD_longPacket_congr hlen fun j hj => hbyte j ((dependsOn_long rfl k j).2 (by rw [hp] at hj; exact hj))
  case long =>
    rw [dependsOn_long hop]
    simp only [packetSize, hop, if_true] at hk
    omega

end Sys2Proof.Machine
end

section
/-! SUPPORT. What opening bytes, other agents' accesses, settling and getting stuck leave in memory, byte by byte, and that each
keeps memory canonical and inside the address space. -/

namespace Sys2Proof.Machine

@[simp] theorem instr_src (q : Request) : q.instr.src = q.src := by unfold Request.instr; split <;> rfl
@[simp] theorem instr_dst (q : Request) : q.instr.dst = q.dst := by unfold Request.instr; split <;> rfl
@[simp] theorem instr_len (q : Request) : q.instr.len = q.len := by unfold Request.instr; split <;> rfl
@[simp] theorem instr_cap (q : Request) : q.instr.cap = q.cap := by unfold Request.instr; split <;> rfl

/-- The bytes at consecutive addresses, as a payload is read from them. -/
theorem Memory.getD_readAll (m : Memory) (a : Nat) {n k : Nat} (hk : k < n) : (m.readAll a n).getD k 0 = m.read (a + k) := by
  rw [List.getD_eq_getElem _ _ (by simpa using hk), Memory.getElem_readAll]

/-- Memory in its canonical form and inside an address space of `w` bits, as `Inv` asks. -/
abbrev Memory.Within (w : Nat) (m : Memory) : Prop := m.wf ∧ ∀ c ∈ m, c.1 < 2 ^ w

/-- Writing bytes that lie inside the address space keeps memory canonical and inside it. -/
theorem Memory.within_writeAll {w a : Nat} {m : Memory} {bs : List Byte} (h : m.Within w) (htop : a + bs.length ≤ 2 ^ w) :
    (m.writeAll a bs).Within w := by
  obtain ⟨hm, hin⟩ := h
  refine ⟨Memory.wf_writeAll hm _ _, fun c hc => ?_⟩
  rcases Memory.mem_writeAll hc with hc | ⟨-, hc⟩
  · exact hin c hc
  · omega

/-- Opening bytes keeps memory canonical. -/
theorem wf_openBytes {as : List Nat} {s : State} (hm : s.mem.wf) : (as.foldl State.openByte s).mem.wf := by
  induction as generalizing s with
  | nil => exact hm
  | cons a as ih => exact ih (s := s.openByte a) (Memory.wf_write hm _ _)

/-- Opening the bytes of broken duties keeps memory canonical. -/
theorem wf_scramble {s : State} (hm : s.mem.wf) (is : List Instr) (d : List BusAccess) : (scramble is d s).mem.wf := by
  rw [scramble_eq_openBytes]; exact wf_openBytes hm

/-- Accesses of other agents keep memory canonical. -/
theorem wf_busAccesses {s : State} (hm : s.mem.wf) (bs : List BusAccess) : (busAccesses s bs).mem.wf := by
  induction bs generalizing s with
  | nil => exact hm
  | cons b bs ih =>
    cases b with
    | read a => exact ih (s := s) hm
    | write a v => exact ih (s := s.memWrite a v) (Memory.wf_write hm a v)

/-- Accesses of other agents inside the address space keep memory canonical and inside it. -/
theorem within_busAccesses {w : Nat} {s : State} {bs : List BusAccess} (haddr : s.addrW = w) (h : s.mem.Within w)
    (ho : firstOutside w bs = none) : (busAccesses s bs).mem.Within w := by
  subst haddr
  exact busAccesses_mem_keeps h.1 h.2 ho

/-- Opening the bytes of broken duties inside the address space keeps memory canonical and inside it. -/
theorem within_scramble {w : Nat} {s : State} {is : List Instr} {d : List BusAccess} (haddr : s.addrW = w)
    (h : s.mem.Within w) (ho : firstOutside w d = none) : (scramble is d s).mem.Within w := by
  subst haddr
  exact scramble_mem h.1 h.2 ho

/-- Accesses of other agents do not look at the arrivals. -/
theorem busAccesses_setInputs (s : State) (rest : List Input) (bs : List BusAccess) :
    busAccesses { s with inputs := rest } bs = { busAccesses s bs with inputs := rest } := by
  induction bs generalizing s with
  | nil => rfl
  | cons b bs ih =>
    cases b with
    | read a => exact ih s
    | write a v => exact ih (s.memWrite a v)

/-- A byte that no other agent writes reads as before their accesses. -/
theorem read_busAccesses_kept {a : Nat} {bs : List BusAccess} (h : ∀ v, BusAccess.write a v ∉ bs) (s : State) :
    (busAccesses s bs).mem.read a = s.mem.read a := by
  induction bs generalizing s with
  | nil => rfl
  | cons b bs ih =>
    have htail : ∀ v, BusAccess.write a v ∉ bs := fun v hv => h v (List.mem_cons_of_mem _ hv)
    refine (ih htail (busAccess s b)).trans ?_
    cases b with
    | read c => rfl
    | write c v =>
      refine Memory.read_write_ne fun hac => h v ?_
      rw [hac]
      exact List.mem_cons_self

/-- R29: a byte of the source region of an accepted request that no duty is broken at is not written by other agents. -/
theorem read_busAccesses_source {is : List Instr} {d : List BusAccess} {i : Instr} {a : Nat} (hi : i ∈ is) (ha : Accepted i)
    (h1 : i.src ≤ a) (h2 : a < i.src + i.len.toNat) (ht : ¬ TouchedAt is d a) (s : State) :
    (busAccesses s d).mem.read a = s.mem.read a :=
  read_busAccesses_kept (fun v hv => ht ⟨_, hv, rfl, i, hi, ha, .inl ⟨a, v, rfl, h1, h2⟩⟩) s

/-- A byte outside an opened region reads as before. -/
theorem read_openRegion_kept {f : Footprint} {a : Nat} (h : a < f.dst ∨ f.dst + f.size ≤ a) (s : State) :
    (s.openRegion f).mem.read a = s.mem.read a :=
  Memory.read_writeAll_outside (by simpa [freeBytes] using h)

/-- Each byte of an opened region holds a free value. -/
theorem read_openRegion_open {s : State} {f : Footprint} (hm : s.mem.wf) {k : Nat} (hk : k < f.size) :
    (s.openRegion f).mem.read (f.dst + k) = Config.openByte s.freeCount (f.dst + k) := by
  have hlen : k < (freeBytes s.freeCount f.dst f.size).length := by simpa [freeBytes] using hk
  rw [openRegion_mem, Memory.read_writeAll_inside hm hlen]
  simp [freeBytes]

/-- Opening a region inside the address space keeps memory canonical and inside it. -/
theorem within_openRegion {w : Nat} {s : State} {f : Footprint} (h : s.mem.Within w) (htop : f.dst + f.size ≤ 2 ^ w) :
    (s.openRegion f).mem.Within w :=
  Memory.within_writeAll h (by simpa [freeBytes] using htop)

/-- An answered operation whose regions are inside the address space keeps memory inside it. -/
theorem within_memAfter {w : Nat} {m : Memory} (h : m.Within w) {i : Instr}
    (hd : Accepted i → (regionsOf i).Defined w) : (memAfter i m).Within w := by
  by_cases ha : Accepted i
  · obtain ⟨-, htop, -⟩ := hd ha
    rw [memAfter_of_accepted ha]
    exact Memory.within_writeAll h (by rw [length_packetOf_readAll ha]; exact htop)
  · rwa [memAfter_of_not_accepted ha]

/-- R123 (2), in terms of the operands: another agent touches the buffer behind the packet of an accepted request. -/
theorem intruded_iff {i : Instr} {d : List BusAccess} :
    intruded i d = true ↔ Accepted i ∧ ∃ b ∈ d, i.dst + packetSize i ≤ b.addr ∧ b.addr < i.dst + i.cap.toNat := by
  by_cases ha : Accepted i
  · rw [intruded, footprint_of_accepted ha, and_iff_right ha, List.any_eq_true]
    exact exists_congr fun b => and_congr_right fun _ => intrudes_iff _ _ _
  · simp [intruded, footprint_of_not_accepted ha, ha]

/-- Where the duties towards a request are kept, nobody touches the buffer behind its packet. -/
theorem intruded_of_undisturbed {i : Instr} {d : List BusAccess} (h : undisturbed i d = true) : intruded i d = false := by
  rw [undisturbed, Bool.not_eq_true', Bool.or_eq_false_iff] at h
  exact h.2

/-- Settling a request behind whose packet nobody intruded opens the bytes of broken duties and nothing else. -/
theorem settle_of_not_intruded {i : Instr} {d : List BusAccess} (h : intruded i d = false) (is : List Instr) (s : State) :
    settle i is d s = scramble is d s := by
  rw [settle, h]
  split <;> rfl

/-- Settling a request behind whose packet another agent intruded leaves it without a defined result (R131). -/
theorem settle_of_intruded {i : Instr} {d : List BusAccess} (h : intruded i d = true) (is : List Instr) (s : State) :
    settle i is d s = scramble is d (s.openResult (regionsOf i)) := by
  rw [settle, footprint_of_accepted (intruded_iff.1 h).1, h]
  rfl

/-- The counter of free values does not fall when a request is settled. -/
theorem freeCount_le_settle (i : Instr) (is : List Instr) (d : List BusAccess) (s : State) :
    s.freeCount ≤ (settle i is d s).freeCount := by
  cases h : intruded i d with
  | false => rw [settle_of_not_intruded h]; exact freeCount_le_scramble _ _ _
  | true => rw [settle_of_intruded h]; exact (Nat.le_succ _).trans (freeCount_le_scramble is d (s.openResult (regionsOf i)))

/-- Settling a request whose regions are inside the address space keeps memory canonical and inside it. -/
theorem within_settle {w : Nat} {i : Instr} {is : List Instr} {d : List BusAccess} {s : State} (haddr : s.addrW = w)
    (h : s.mem.Within w) (hd : Accepted i → (regionsOf i).Defined w) (ho : firstOutside w d = none) :
    (settle i is d s).mem.Within w := by
  cases hi : intruded i d with
  | false => rw [settle_of_not_intruded hi]; exact within_scramble haddr h ho
  | true =>
    obtain ⟨-, htop, -⟩ := hd (intruded_iff.1 hi).1
    rw [settle_of_intruded hi]
    exact within_scramble (s := s.openResult (regionsOf i)) haddr (within_openRegion (f := regionsOf i) h htop) ho

/-- A byte outside the destination region at which no duty was broken reads after settling as before. -/
theorem read_settle_kept {i : Instr} {is : List Instr} {d : List BusAccess} {a : Nat}
    (h : Spares i a) (ht : ¬ TouchedAt is d a) (s : State) :
    (settle i is d s).mem.read a = s.mem.read a := by
  cases hi : intruded i d with
  | false => rw [settle_of_not_intruded hi, read_scramble_kept ht]
  | true =>
    rw [settle_of_intruded hi, read_scramble_kept ht, openResult_mem]
    exact read_openRegion_kept (f := regionsOf i) (h (intruded_iff.1 hi).1) s

/-- A byte at which a duty was broken holds a free value when the request is settled. -/
theorem read_settle_touched {is : List Instr} {d : List BusAccess} {a : Nat} {s : State} (hm : s.mem.wf)
    (ht : TouchedAt is d a) (i : Instr) : ∃ n, (settle i is d s).mem.read a = Config.openByte n a := by
  cases hi : intruded i d with
  | false => rw [settle_of_not_intruded hi]; exact read_scramble_open hm (.inl ht)
  | true =>
    rw [settle_of_intruded hi]
    exact read_scramble_open (s := s.openResult _) (Memory.wf_writeAll hm _ _) (.inl ht)

/-- R131: each byte of the packet of a request without a defined result holds a free value. -/
theorem read_settle_intruded {i : Instr} {is : List Instr} {d : List BusAccess} {s : State} (hm : s.mem.wf)
    (hi : intruded i d = true) {k : Nat} (hk : k < packetSize i) :
    ∃ n, (settle i is d s).mem.read (i.dst + k) = Config.openByte n (i.dst + k) := by
  rw [settle_of_intruded hi]
  exact read_scramble_open (s := s.openResult _) (Memory.wf_writeAll hm _ _)
    (.inr ⟨s.freeCount, read_openRegion_open (f := regionsOf i) hm hk⟩)

/-- The response a settled request gives: the operation's, or an open one where another agent intruded behind the packet (R131).
`settle_answered_response` ties it to `settle`. -/
def givenAnswer (i : Instr) (d : List BusAccess) (s : State) : Response :=
  if intruded i d then
    ⟨statusOf (Config.openStatus s.freeCount), responseLength i (statusOf (Config.openStatus s.freeCount))⟩
  else answer i

theorem givenAnswer_of_not_intruded {i : Instr} {d : List BusAccess} (h : intruded i d = false) (s : State) :
    givenAnswer i d s = answer i := by
  rw [givenAnswer, h]
  rfl

theorem givenAnswer_of_intruded {i : Instr} {d : List BusAccess} (h : intruded i d = true) (s : State) :
    givenAnswer i d s
      = ⟨statusOf (Config.openStatus s.freeCount), responseLength i (statusOf (Config.openStatus s.freeCount))⟩ := if_pos h

/-- A settled request that was answered gives its response, and is in flight no longer. -/
theorem settle_answered_response (i : Instr) (is : List Instr) (d : List BusAccess) (s : State) :
    (settle i is d (answered i s)).response = some (givenAnswer i d s) := by
  cases h : intruded i d with
  | false => rw [settle_of_not_intruded h, givenAnswer_of_not_intruded h, scramble_response]; rfl
  | true => rw [settle_of_intruded h, givenAnswer_of_intruded h, scramble_response]; rfl

theorem settle_answered_inFlight (i : Instr) (is : List Instr) (d : List BusAccess) (s : State) :
    (settle i is d (answered i s)).inFlight = none := (settle_response is d rfl).1

/-- R18: `OK` is given to accepted requests only, with the packet size. -/
theorem givenAnswer_of_ok {i : Instr} {d : List BusAccess} {s : State} (h : (givenAnswer i d s).status = .ok) :
    Accepted i ∧ (givenAnswer i d s).length.toNat = packetSize i := by
  cases hi : intruded i d with
  | false =>
    rw [givenAnswer_of_not_intruded hi] at h ⊢
    exact ⟨answer_status_ok_iff.1 h, answer_length_of_ok h⟩
  | true =>
    rw [givenAnswer_of_intruded hi] at h ⊢
    have ha := (intruded_iff.1 hi).1
    have hst : statusOf (Config.openStatus s.freeCount) = .ok := h
    exact ⟨ha, by rw [hst]; exact toNat_responseLength_ok ha⟩

/-- R18: with an error the length is 0. -/
theorem givenAnswer_of_error {i : Instr} {d : List BusAccess} {s : State} (h : (givenAnswer i d s).status ≠ .ok) :
    (givenAnswer i d s).length = 0 := by
  cases hi : intruded i d with
  | false => rw [givenAnswer_of_not_intruded hi] at h ⊢; exact answer_length_of_error h
  | true => rw [givenAnswer_of_intruded hi] at h ⊢; exact if_neg h

/-- R63: the sizes of the packets of accepted requests. -/
theorem packetSize_of_accepted {i : Instr} (ha : Accepted i) :
    packetSize i = 4 ∨ (6 ≤ packetSize i ∧ packetSize i ≤ 65541) := by
  obtain ⟨-, hlen, -⟩ := ha
  cases hop : i.op with
  | false => simp [packetSize, hop]
  | true =>
    have hmax : i.len.toNat ≤ 65535 := (lengthValid_of_long hop).1 hlen
    simp only [packetSize, hop, if_true]
    omega

/-- R100: the response given is a legal one. -/
theorem legal_givenAnswer (i : Instr) (d : List BusAccess) (s : State) : (givenAnswer i d s).Legal := by
  by_cases h : (givenAnswer i d s).status = .ok
  · obtain ⟨ha, hlen⟩ := givenAnswer_of_ok h
    exact .inl ⟨h, by rw [hlen]; exact packetSize_of_accepted ha⟩
  · exact .inr ⟨h, givenAnswer_of_error h⟩

end Sys2Proof.Machine
end

section
/-! SUPPORT. A step that takes a request, in both directions: the state in which it is performed, the two states it can leave
(answered, or stuck in flight), which of them it leaves, and what each of them holds. -/

namespace Sys2Proof.Machine

/-- The state in which the request at the head of the arrivals is performed: in flight beside the stuck ones, other agents'
accesses done, and the bytes of broken duties open. -/
def started (s : State) (q : Request) (during : List BusAccess) (rest : List Input) : State :=
  scramble (s.flying ++ [q.instr]) during ((busAccesses { s with inputs := rest } during).accept q)

/-- What a step leaves of a request that is answered. -/
def finished (s : State) (w : Nat) (q : Request) (during : List BusAccess) (rest : List Input) : State :=
  (settle q.instr (s.flying ++ [q.instr]) during (answered q.instr (started s q during rest))).deliver w

/-- What a step leaves of a request that meets an access the platform does not admit. -/
def leftStuck (s : State) (q : Request) (during : List BusAccess) (rest : List Input) : State :=
  scramble (s.flying ++ [q.instr]) during (getStuck q.instr during (started s q during rest))

/-- What a step leaves of a request that is cut by a reset. -/
def cutShort (s : State) (q : Request) (during : List BusAccess) (rest : List Input) : State :=
  scramble (s.flying ++ [q.instr]) during (resetBlock (started s q during rest))

section Fields

variable (s : State) (w : Nat) (q : Request) (during : List BusAccess) (rest : List Input)

@[simp] theorem started_addrW : (started s q during rest).addrW = s.addrW := by simp [started]
@[simp] theorem started_denied : (started s q during rest).denied = s.denied := by simp [started]
@[simp] theorem started_response : (started s q during rest).response = none := by simp [started]
@[simp] theorem started_inputs : (started s q during rest).inputs = rest := by simp [started]
@[simp] theorem started_delivered : (started s q during rest).delivered = s.delivered := by simp [started]
@[simp] theorem started_stuck : (started s q during rest).stuck = s.flying := by simp [started, State.flying]
@[simp] theorem started_flying : (started s q during rest).flying = s.flying ++ [q.instr] := by simp [started, State.flying]

theorem freeCount_le_started : s.freeCount ≤ (started s q during rest).freeCount := by
  refine le_trans ?_ (freeCount_le_scramble _ _ _)
  simp

/-- What the platform admits is the same while a request is performed. -/
@[simp] theorem admits_started (k : AccessKind) (a : Nat) : (started s q during rest).admits k a = s.admits k a :=
  admits_congr (by simp) (by simp) k a

@[simp] theorem finished_addrW : (finished s w q during rest).addrW = s.addrW := by simp [finished, answered]
@[simp] theorem finished_denied : (finished s w q during rest).denied = s.denied := by simp [finished, answered]
@[simp] theorem finished_inFlight : (finished s w q during rest).inFlight = none := by
  simp [finished, settle_answered_inFlight]
@[simp] theorem finished_response : (finished s w q during rest).response = none := by simp [finished]
@[simp] theorem finished_inputs : (finished s w q during rest).inputs = rest := by simp [finished, answered]
@[simp] theorem finished_stuck : (finished s w q during rest).stuck = s.flying := by simp [finished, answered]
@[simp] theorem finished_flying : (finished s w q during rest).flying = s.flying := by simp [State.flying]

@[simp] theorem leftStuck_addrW : (leftStuck s q during rest).addrW = s.addrW := by simp [leftStuck]
@[simp] theorem leftStuck_denied : (leftStuck s q during rest).denied = s.denied := by simp [leftStuck]
@[simp] theorem leftStuck_inFlight : (leftStuck s q during rest).inFlight = none := by simp [leftStuck]
@[simp] theorem leftStuck_response : (leftStuck s q during rest).response = none := by simp [leftStuck]
@[simp] theorem leftStuck_inputs : (leftStuck s q during rest).inputs = rest := by simp [leftStuck]
@[simp] theorem leftStuck_delivered : (leftStuck s q during rest).delivered = s.delivered := by simp [leftStuck]
@[simp] theorem leftStuck_stuck : (leftStuck s q during rest).stuck = s.flying ++ [q.instr] := by simp [leftStuck]
@[simp] theorem leftStuck_flying : (leftStuck s q during rest).flying = s.flying ++ [q.instr] := by simp [State.flying]

@[simp] theorem cutShort_addrW : (cutShort s q during rest).addrW = s.addrW := by simp [cutShort]
@[simp] theorem cutShort_denied : (cutShort s q during rest).denied = s.denied := by simp [cutShort]
@[simp] theorem cutShort_inFlight : (cutShort s q during rest).inFlight = none := by simp [cutShort]
@[simp] theorem cutShort_response : (cutShort s q during rest).response = none := by simp [cutShort]
@[simp] theorem cutShort_inputs : (cutShort s q during rest).inputs = rest := by simp [cutShort]
@[simp] theorem cutShort_delivered : (cutShort s q during rest).delivered = s.delivered := by simp [cutShort]
@[simp] theorem cutShort_stuck : (cutShort s q during rest).stuck = [] := by simp [cutShort]
@[simp] theorem cutShort_flying : (cutShort s q during rest).flying = [] := by simp [flying_eq_nil_iff]

/-- The response of an answered request is delivered to the requester that issued it, and is all that names the requester. -/
theorem finished_eq : finished s w q during rest =
    { settle q.instr (s.flying ++ [q.instr]) during (answered q.instr (started s q during rest)) with
      response := none
      delivered := s.delivered ++ [⟨w, givenAnswer q.instr during (started s q during rest)⟩] } := by
  rw [finished, deliver_of_some _ _ (settle_answered_response _ _ _ _)]
  simp [answered]

@[simp] theorem finished_delivered : (finished s w q during rest).delivered
    = s.delivered ++ [⟨w, givenAnswer q.instr during (started s q during rest)⟩] := by rw [finished_eq]

theorem finished_mem : (finished s w q during rest).mem
    = (settle q.instr (s.flying ++ [q.instr]) during (answered q.instr (started s q during rest))).mem := deliver_mem _ _

/-- What a request leaves that arrives without any access of other agents and is answered. -/
theorem finished_alone : finished s w q [] rest =
    { s with
      mem := memAfter q.instr s.mem, stuck := s.flying, inFlight := none, response := none, inputs := rest
      delivered := s.delivered ++ [⟨w, answer q.instr⟩] } := by
  have hni : intruded q.instr [] = false := intruded_of_undisturbed (undisturbed_nil _)
  rw [finished_eq, settle_of_not_intruded hni, givenAnswer_of_not_intruded hni]
  rfl

end Fields

/-! ## Which state a step leaves -/

/-- Whether regions are admitted depends on the parameters alone. -/
theorem admitted_congr {s t : State} (haddr : t.addrW = s.addrW) (hdenied : t.denied = s.denied) (f : Footprint) :
    f.Admitted t ↔ f.Admitted s := by
  simp only [Footprint.Admitted, admits_congr haddr hdenied]

/-- Whether a request is answerable depends on the parameters alone. -/
theorem answerable_congr {s t : State} (haddr : t.addrW = s.addrW) (hdenied : t.denied = s.denied) (i : Instr) :
    Answerable t i ↔ Answerable s i := by
  simp only [Answerable, admitted_congr haddr hdenied, haddr]

/-- Whether a request is a stuck one depends on the parameters alone. -/
theorem isStuck_congr {s t : State} (haddr : t.addrW = s.addrW) (hdenied : t.denied = s.denied) (i : Instr) :
    IsStuck t i ↔ IsStuck s i := by
  simp only [IsStuck, admitted_congr haddr hdenied, haddr]

@[simp] theorem answerable_started (s : State) (q : Request) (during : List BusAccess) (rest : List Input) (i : Instr) :
    Answerable (started s q during rest) i ↔ Answerable s i := answerable_congr (by simp) (by simp) i

@[simp] theorem isStuck_started (s : State) (q : Request) (during : List BusAccess) (rest : List Input) (i : Instr) :
    IsStuck (started s q during rest) i ↔ IsStuck s i := isStuck_congr (by simp) (by simp) i

/-- A stuck request is not answerable. -/
theorem not_answerable_of_isStuck {s : State} {i : Instr} (h : IsStuck s i) : ¬ Answerable s i := fun hans =>
  have ⟨ha, _, hnad⟩ := h
  hnad (answerable_iff.1 hans ha).2

/-- A request with regions that have a result, if it has any, is answered or gets stuck. -/
theorem answerable_or_isStuck {s : State} {i : Instr} (h : ∀ f, footprint i = some f → f.Defined s.addrW) :
    Answerable s i ∨ IsStuck s i := by
  by_cases hans : Answerable s i
  · exact .inl hans
  · rw [answerable_iff] at hans
    push Not at hans
    obtain ⟨ha, hnad⟩ := hans
    have hd := h _ (footprint_of_accepted ha)
    exact .inr ⟨ha, hd, hnad hd⟩

/-- Presenting a request that can be presented hands it on in the state in which it is performed. -/
theorem present_of_wf {q : Request} {during : List BusAccess} {s : State} (hwf : q.wf s.addrW = true)
    (ho : firstOutside s.addrW during = none) (rest : List Input)
    (k : Instr → State → Host.Outcome State Fault Refusal) :
    present q during { s with inputs := rest } k = k q.instr (started s q during rest) := by
  have hdecode : decode ({ s with inputs := rest } : State).addrW q = .ok q.instr := decode_of_wf hwf
  have houtside : firstOutside ({ s with inputs := rest } : State).addrW during = none := ho
  rw [present, hdecode, houtside, started]
  simp [State.flying]

/-- A request that decodes has addresses in range. -/
theorem wf_of_decode {w : Nat} {q : Request} {i : Instr} (h : decode w q = .ok i) : q.wf w = true :=
  have ⟨_, hsrc, hdst⟩ := decode_eq_ok h
  Request.wf_of_lt hsrc hdst

section Request

variable {s t : State} {w : Nat} {q : Request} {during : List BusAccess} {rest : List Input}

/-- A step performs the request at the head of the arrivals. -/
theorem step_eq_performRequest (hin : s.inputs = .request w q during :: rest) :
    step s = performRequest w q during { s with inputs := rest } := by
  rw [step, nextArrival, hin]
  rfl

/-- Where the operation answers, the step settles the request and delivers its response. -/
theorem step_of_exec_next (hin : s.inputs = .request w q during :: rest) (hwf : q.wf s.addrW = true)
    (ho : firstOutside s.addrW during = none) {u : State} (h : exec q.instr (started s q during rest) = .next u) :
    step s = .next ((settle q.instr (s.flying ++ [q.instr]) during u).deliver w) := by
  rw [step_eq_performRequest hin, performRequest, present_of_wf hwf ho]
  simp only [h, started_flying]

/-- Where the operation faults, the step leaves the request stuck in flight. -/
theorem step_of_exec_fault (hin : s.inputs = .request w q during :: rest) (hwf : q.wf s.addrW = true)
    (ho : firstOutside s.addrW during = none) {r : Fault} (h : exec q.instr (started s q during rest) = .fault r) :
    step s = .next (leftStuck s q during rest) := by
  obtain ⟨-, -, -, -, a, left, rfl | rfl⟩ := exec_fault h <;>
    rw [step_eq_performRequest hin, performRequest, present_of_wf hwf ho] <;>
    simp only [h, started_flying, leftStuck]

/-- Where the operation refuses, the step refuses. -/
theorem step_of_exec_refused (hin : s.inputs = .request w q during :: rest) (hwf : q.wf s.addrW = true)
    (ho : firstOutside s.addrW during = none) {r : Refusal} (h : exec q.instr (started s q during rest) = .refused r) :
    step s = .refused r := by
  rw [step_eq_performRequest hin, performRequest, present_of_wf hwf ho]
  simp only [h]

/-- R130: a request that is answerable is answered. -/
theorem step_of_answerable (hin : s.inputs = .request w q during :: rest) (hwf : q.wf s.addrW = true)
    (ho : firstOutside s.addrW during = none) (hans : Answerable s q.instr) :
    step s = .next (finished s w q during rest) :=
  step_of_exec_next hin hwf ho (exec_of_answerable ((answerable_started _ _ _ _ _).2 hans))

/-- R22, R23: a request that meets an access the platform does not admit gets stuck. -/
theorem step_of_isStuck (hin : s.inputs = .request w q during :: rest) (hwf : q.wf s.addrW = true)
    (ho : firstOutside s.addrW during = none) (hstuck : IsStuck s q.instr) :
    step s = .next (leftStuck s q during rest) := by
  obtain ⟨ha, hd, hnad⟩ := (isStuck_started s q during rest _).2 hstuck
  obtain ⟨r, hr⟩ := exec_of_not_admitted (footprint_of_accepted ha) hd hnad
  exact step_of_exec_fault hin hwf ho hr

/-- Everything a step that takes a request can do when it answers. -/
theorem step_request_next (hin : s.inputs = .request w q during :: rest) (h : step s = .next t) :
    q.wf s.addrW = true ∧ firstOutside s.addrW during = none ∧
      ((Answerable s q.instr ∧ t = finished s w q during rest) ∨
        (IsStuck s q.instr ∧ t = leftStuck s q during rest)) := by
  rw [step_eq_performRequest hin] at h
  obtain ⟨hdecode, ho, _, rfl, hflying, ⟨u, hexec, rfl⟩ | ⟨r, hexec, rfl⟩⟩ := performRequest_next h
  · obtain ⟨hans, rfl⟩ := exec_eq_next_iff.1 hexec
    refine ⟨wf_of_decode hdecode, ho, .inl ⟨(answerable_started s q during rest _).1 hans, ?_⟩⟩
    rw [hflying]
    rfl
  · obtain ⟨f, hf, hd, hnad, -⟩ := exec_fault hexec
    obtain ⟨ha, rfl⟩ := footprint_eq_some hf
    refine ⟨wf_of_decode hdecode, ho, .inr ⟨(isStuck_started s q during rest _).1 ⟨ha, hd, hnad⟩, ?_⟩⟩
    rw [hflying]
    rfl

/-- R121: a request that can be presented and whose regions have a result, if it has any, is abandoned when a reset cuts it. -/
theorem step_of_cut (hin : s.inputs = .requestCutByReset q during :: rest) (hp : Presentable s q during) :
    step s = .next (cutShort s q during rest) := by
  obtain ⟨hwf, ho, hd⟩ := hp
  have hnone : (footprint q.instr).bind (Footprint.refusal (started s q during rest).addrW) = none := by
    rw [started_addrW]
    cases hf : footprint q.instr with
    | none => rfl
    | some f => exact refusal_eq_none_iff.2 (hd f hf)
  have hstep : step s = cutRequest q during { s with inputs := rest } := by
    rw [step, nextArrival, hin]
    rfl
  rw [hstep, cutRequest, present_of_wf hwf ho]
  simp only [hnone, started_flying, cutShort]

/-- Everything a step that takes a cut request can do when it answers. -/
theorem step_cut_next (hin : s.inputs = .requestCutByReset q during :: rest) (h : step s = .next t) :
    Presentable s q during ∧ t = cutShort s q during rest := by
  rw [step, nextArrival, hin] at h
  obtain ⟨hdecode, ho, hd, _, rfl, hflying, rfl⟩ := cutRequest_next h
  refine ⟨⟨wf_of_decode hdecode, ho, hd⟩, ?_⟩
  rw [hflying]
  rfl

/-- A step takes a reset at the head of the arrivals. -/
theorem step_of_reset (hin : s.inputs = .reset :: rest) : step s = .next (resetBlock { s with inputs := rest }) := by
  rw [step, nextArrival, hin]
  rfl

/-- A step takes an access of another agent at the head of the arrivals. -/
theorem step_of_bus {b : BusAccess} (hin : s.inputs = .bus b :: rest) : step s = busInput b { s with inputs := rest } := by
  rw [step, nextArrival, hin]
  rfl

end Request

/-- A run of one step more begins with the step. -/
theorem run_succ {s t : State} (h : step s = .next t) (k : Nat) : core.run (k + 1) s = core.run k t := by
  have hcore : core.step s = .next t := h
  simp only [Host.Core.run, hcore]

/-- A run of two steps. -/
theorem run_two {s t u : State} (h : step s = .next t) (h' : step t = .next u) : core.run 2 s = .next u := by
  rw [run_succ h, run_succ h']
  rfl

/-! ## What memory holds after it -/

section Memory

variable {s : State} {w : Nat} {q : Request} {during : List BusAccess} {rest : List Input} {a : Nat}

/-- Memory is canonical when the request is performed. -/
theorem wf_started (hm : s.mem.wf) : (started s q during rest).mem.wf :=
  wf_scramble (s := (busAccesses { s with inputs := rest } during).accept q)
    (wf_busAccesses (s := { s with inputs := rest }) hm _) _ _

/-- Memory is inside the address space when the request is performed. -/
theorem within_started (hm : s.mem.Within s.addrW) (ho : firstOutside s.addrW during = none) :
    (started s q during rest).mem.Within s.addrW :=
  within_scramble (by simp) (within_busAccesses (s := { s with inputs := rest }) rfl hm ho) ho

/-- A byte at which no duty was broken is, when the request is performed, as other agents leave it. -/
theorem read_started_kept (ht : ¬ TouchedAt (s.flying ++ [q.instr]) during a) :
    (started s q during rest).mem.read a = (busAccesses s during).mem.read a := by
  rw [started, read_scramble_kept ht, accept_mem, busAccesses_setInputs]

/-- A byte at which a duty was broken is performed on as a free value. -/
theorem read_started_touched (hm : s.mem.wf) (ht : TouchedAt (s.flying ++ [q.instr]) during a) :
    ∃ n, (started s q during rest).mem.read a = Config.openByte n a :=
  read_scramble_open (s := (busAccesses { s with inputs := rest } during).accept q)
    (wf_busAccesses (s := { s with inputs := rest }) hm _) (.inl ht)

/-- Memory stays canonical and inside the address space when the request is answered. -/
theorem within_finished (hm : s.mem.Within s.addrW) (ho : firstOutside s.addrW during = none)
    (hans : Answerable s q.instr) : (finished s w q during rest).mem.Within s.addrW := by
  have hd (ha : Accepted q.instr) : (regionsOf q.instr).Defined s.addrW := (answerable_iff.1 hans ha).1
  rw [finished_mem]
  exact within_settle (started_addrW _ _ _ _) (within_memAfter (within_started hm ho) hd) hd ho

/-- A byte at which a duty was broken holds a free value when the request is answered. -/
theorem read_finished_touched (hm : s.mem.wf) (ht : TouchedAt (s.flying ++ [q.instr]) during a) :
    ∃ n, (finished s w q during rest).mem.read a = Config.openByte n a := by
  rw [finished_mem]
  exact read_settle_touched (s := answered q.instr _) (wf_memAfter (wf_started hm) _) ht _

/-- Any other byte outside the destination region is as other agents leave it. -/
theorem read_finished_kept (h : Spares q.instr a) (ht : ¬ TouchedAt (s.flying ++ [q.instr]) during a) :
    (finished s w q during rest).mem.read a = (busAccesses s during).mem.read a := by
  rw [finished_mem, read_settle_kept h ht, ← read_started_kept (rest := rest) ht]
  exact read_memAfter_kept h _

/-- Where nobody intruded behind the packet, a byte of the destination region at which no duty was broken holds the packet's byte,
the payload being what the block read. -/
theorem read_finished_packet (hm : s.mem.wf) (ha : Accepted q.instr) (hni : intruded q.instr during = false) {k : Nat}
    (hk : k < packetSize q.instr) (ht : ¬ TouchedAt (s.flying ++ [q.instr]) during (q.dst + k)) :
    (finished s w q during rest).mem.read (q.dst + k)
      = (packetOf q.instr ((started s q during rest).mem.readAll q.src q.len.toNat)).getD k 0 := by
  rw [finished_mem, settle_of_not_intruded hni, read_scramble_kept ht, ← instr_src, ← instr_dst, ← instr_len]
  exact read_memAfter_packet ha (wf_started hm) hk

/-- Where another agent intruded behind the packet, each byte of the destination region holds a free value. -/
theorem read_finished_intruded (hm : s.mem.wf) (hi : intruded q.instr during = true) {k : Nat}
    (hk : k < packetSize q.instr) :
    ∃ n, (finished s w q during rest).mem.read (q.dst + k) = Config.openByte n (q.dst + k) := by
  rw [finished_mem, ← instr_dst]
  exact read_settle_intruded (s := answered q.instr _) (wf_memAfter (wf_started hm) _) hi hk

/-- Getting stuck keeps memory canonical and inside the address space, and leaves a byte that it may not write alone. -/
theorem getStuck_started (hm : s.mem.Within s.addrW) (ho : firstOutside s.addrW during = none) :
    (getStuck q.instr during (started s q during rest)).mem.Within s.addrW ∧
      ∀ a, (Accepted q.instr → a < q.dst ∨ q.dst + packetSize q.instr ≤ a ∨ s.admits .write a = false) →
        (getStuck q.instr during (started s q during rest)).mem.read a = (started s q during rest).mem.read a := by
  obtain ⟨hwf, hin⟩ := within_started (q := q) (rest := rest) hm ho
  obtain ⟨hwf', hin', hread⟩ := getStuck_mem (i := q.instr) (d := during) hwf (by simpa using hin)
  refine ⟨⟨hwf', by simpa using hin'⟩, fun a h => hread a fun f hf hfa => ?_⟩
  obtain ⟨ha, rfl⟩ := footprint_eq_some hf
  obtain ⟨h1, h2⟩ := (inDst_iff _ _).1 hfa
  simp only [regionsOf, instr_dst] at h1 h2
  rw [admits_started]
  rcases h ha with h | h | h
  · omega
  · omega
  · exact h

/-- Memory stays canonical and inside the address space when the request got stuck. -/
theorem within_leftStuck (hm : s.mem.Within s.addrW) (ho : firstOutside s.addrW during = none) :
    (leftStuck s q during rest).mem.Within s.addrW :=
  within_scramble (by simp) (getStuck_started hm ho).1 ho

/-- A byte at which a duty was broken holds a free value when the request got stuck. -/
theorem read_leftStuck_touched (hm : s.mem.Within s.addrW) (ho : firstOutside s.addrW during = none)
    (ht : TouchedAt (s.flying ++ [q.instr]) during a) : ∃ n, (leftStuck s q during rest).mem.read a = Config.openByte n a :=
  read_scramble_open (getStuck_started hm ho).1.1 (.inl ht)

/-- Any other byte that the request may not write is as other agents leave it. -/
theorem read_leftStuck_kept (hm : s.mem.Within s.addrW) (ho : firstOutside s.addrW during = none)
    (h : Accepted q.instr → a < q.dst ∨ q.dst + packetSize q.instr ≤ a ∨ s.admits .write a = false)
    (ht : ¬ TouchedAt (s.flying ++ [q.instr]) during a) :
    (leftStuck s q during rest).mem.read a = (busAccesses s during).mem.read a := by
  rw [leftStuck, read_scramble_kept ht, (getStuck_started hm ho).2 a h, read_started_kept ht]

end Memory

end Sys2Proof.Machine
end

section
/-! SUPPORT. The invariant and the frame of every step (spec/10_state.md section 3, spec/20_memory.md section 1,
spec/70_reset_and_hazards.md section 1). -/

namespace Sys2Proof.Machine

/-- A memory that meets the invariant is canonical and inside the address space. -/
theorem Inv.within {s : State} (h : Inv s) : s.mem.Within s.addrW :=
  have ⟨_, hm, hin, _⟩ := h
  ⟨hm, hin⟩

/-- Between steps nothing is being performed, so all that is in flight is stuck. -/
theorem Inv.isStuck_of_flying {s : State} (h : Inv s) {i : Instr} (hi : i ∈ s.flying) : IsStuck s i := by
  obtain ⟨-, -, -, hidle, -, hstuck, -⟩ := h
  rw [flying_of_none s hidle] at hi
  exact hstuck i hi

/-- The regions of what is in flight between steps have a result. -/
theorem Inv.defined_of_flying {s : State} (h : Inv s) {i : Instr} (hi : i ∈ s.flying) {f : Footprint}
    (hf : footprint i = some f) : f.Defined s.addrW := by
  obtain ⟨-, hd, -⟩ := h.isStuck_of_flying hi
  obtain ⟨-, rfl⟩ := footprint_eq_some hf
  exact hd

/-- A state with the parameters of one that meets the invariant meets it if its memory, what is in flight and what was received
are as the invariant asks. -/
theorem Inv.of_same_parameters {s t : State} (h : Inv s) (haddr : t.addrW = s.addrW) (hdenied : t.denied = s.denied)
    (hmem : t.mem.Within s.addrW) (hidle : t.inFlight = none) (hresponse : t.response = none)
    (hstuck : ∀ i ∈ t.stuck, IsStuck s i) (hlegal : ∀ d ∈ t.delivered, d.response.Legal) : Inv t :=
  have ⟨hpos, _⟩ := h
  ⟨haddr ▸ hpos, hmem.1, haddr ▸ hmem.2, hidle, hresponse, fun i hi => (isStuck_congr haddr hdenied i).2 (hstuck i hi),
    hlegal⟩

/-- What was received before a step was legal. -/
theorem Inv.legal {s : State} (h : Inv s) : ∀ d ∈ s.delivered, d.response.Legal :=
  have ⟨_, _, _, _, _, _, hlegal⟩ := h
  hlegal

/-- Abandoning operations whose regions are inside the address space keeps memory canonical and inside it. -/
theorem within_abandons {w : Nat} {is : List Instr} {s : State} (haddr : s.addrW = w) (hm : s.mem.Within w)
    (hd : ∀ i ∈ is, ∀ f, footprint i = some f → f.Defined w) : (is.foldl abandon s).mem.Within w := by
  subst haddr
  exact abandons_mem hm.1 hm.2 hd

section

variable {s : State} {q : Request} {during : List BusAccess} {rest : List Input}

/-- An answered request keeps the invariant. -/
theorem inv_finished (h : Inv s) (ho : firstOutside s.addrW during = none) (hans : Answerable s q.instr) (w : Nat) :
    Inv (finished s w q during rest) := by
  refine h.of_same_parameters (by simp) (by simp) (within_finished h.within ho hans) (by simp) (by simp) ?_ ?_
  · rw [finished_stuck]
    exact fun i => h.isStuck_of_flying
  · rw [finished_delivered]
    exact List.forall_mem_append.2 ⟨h.legal, List.forall_mem_singleton.2 (legal_givenAnswer _ _ _)⟩

/-- A request that gets stuck keeps the invariant. -/
theorem inv_leftStuck (h : Inv s) (ho : firstOutside s.addrW during = none) (hstuck : IsStuck s q.instr) :
    Inv (leftStuck s q during rest) := by
  refine h.of_same_parameters (by simp) (by simp) (within_leftStuck h.within ho) (by simp) (by simp) ?_ ?_
  · rw [leftStuck_stuck]
    exact List.forall_mem_append.2 ⟨fun i => h.isStuck_of_flying, List.forall_mem_singleton.2 hstuck⟩
  · rw [leftStuck_delivered]
    exact h.legal

/-- A request cut by a reset keeps the invariant. -/
theorem inv_cutShort (h : Inv s) (hp : Presentable s q during) : Inv (cutShort s q during rest) := by
  obtain ⟨-, ho, hd⟩ := hp
  have hdefined : ∀ i ∈ (started s q during rest).flying, ∀ f, footprint i = some f → f.Defined s.addrW := by
    rw [started_flying]
    exact List.forall_mem_append.2 ⟨fun i hi f hf => h.defined_of_flying hi hf, List.forall_mem_singleton.2 hd⟩
  have hmem : (cutShort s q during rest).mem.Within s.addrW :=
    within_scramble (by simp) (within_abandons (started_addrW _ _ _ _) (within_started h.within ho) hdefined) ho
  refine h.of_same_parameters (by simp) (by simp) hmem (by simp) (by simp) (by simp) ?_
  rw [cutShort_delivered]
  exact h.legal

/-- A reset keeps the invariant. -/
theorem inv_resetBlock (h : Inv s) : Inv (resetBlock { s with inputs := rest }) := by
  have hmem : (resetBlock { s with inputs := rest }).mem.Within s.addrW :=
    within_abandons (s := { s with inputs := rest }) rfl h.within fun i hi f hf => h.defined_of_flying hi hf
  refine h.of_same_parameters (by simp) (by simp) hmem rfl rfl (by simp) ?_
  rw [resetBlock_delivered]
  exact h.legal

/-- An access of another agent between two arrivals keeps the invariant. -/
theorem inv_busAccess (h : Inv s) {b : BusAccess} (hb : b.addr < 2 ^ s.addrW) :
    Inv (scramble s.flying [b] (busAccess { s with inputs := rest } b)) := by
  have ho : firstOutside s.addrW [b] = none := by simpa [firstOutside, fitsAddr] using hb
  have hmem : (scramble s.flying [b] (busAccess { s with inputs := rest } b)).mem.Within s.addrW :=
    within_scramble (by simp) (within_busAccesses (s := { s with inputs := rest }) (bs := [b]) rfl h.within ho) ho
  have ⟨_, _, _, hidle, hresponse, hstuck, hlegal⟩ := h
  exact h.of_same_parameters (by simp) (by simp) hmem (by simpa using hidle) (by simpa using hresponse)
    (by simpa using hstuck) (by simpa using hlegal)

end

/-- Settles O49: one case for each arrival a step can take (`step_next`), each kept by its own lemma. -/
theorem everyStepKeepsTheInvariant : Obligations.EveryStepKeepsTheInvariant := by
  intro s t h hstep
  rcases step_next hstep with ⟨-, rfl⟩ | ⟨w, q, during, rest, hin, -⟩ | ⟨q, during, rest, hin, -⟩ | ⟨rest, -, rfl⟩ |
    ⟨b, rest, -, hb, rfl⟩
  · exact h
  · obtain ⟨-, ho, ⟨hans, rfl⟩ | ⟨hstuck, rfl⟩⟩ := step_request_next hin hstep
    · exact inv_finished h ho hans w
    · exact inv_leftStuck h ho hstuck
  · obtain ⟨hp, rfl⟩ := step_cut_next hin hstep
    exact inv_cutShort h hp
  · exact inv_resetBlock h
  · exact inv_busAccess h hb

/-- Settles O48: right after reset nothing is listed, in flight or received. -/
theorem resetMeetsTheInvariant : Obligations.ResetMeetsTheInvariant :=
  ⟨by decide, Memory.wf_nil, List.forall_mem_nil _, rfl, rfl, List.forall_mem_nil _, List.forall_mem_nil _⟩

/-- The counter of free values does not fall when operations are abandoned. -/
theorem freeCount_le_abandons (is : List Instr) (s : State) : s.freeCount ≤ (is.foldl abandon s).freeCount := by
  induction is generalizing s with
  | nil => exact le_rfl
  | cons i is ih =>
    refine le_trans ?_ (ih (abandon s i))
    unfold abandon
    split
    · exact Nat.le_succ _
    · exact le_rfl

section

variable (s : State) (w : Nat) (q : Request) (during : List BusAccess) (rest : List Input)

/-- The counter of free values does not fall when a request is answered, gets stuck, or is cut. -/
theorem freeCount_le_finished : s.freeCount ≤ (finished s w q during rest).freeCount := by
  rw [finished, deliver_freeCount]
  exact (freeCount_le_started s q during rest).trans (freeCount_le_settle _ _ _ (answered q.instr _))

theorem freeCount_le_leftStuck : s.freeCount ≤ (leftStuck s q during rest).freeCount :=
  calc s.freeCount
    _ ≤ (started s q during rest).freeCount := freeCount_le_started s q during rest
    _ ≤ (getStuck q.instr during (started s q during rest)).freeCount := freeCount_le_getStuck _ _ _
    _ ≤ (leftStuck s q during rest).freeCount := freeCount_le_scramble _ _ _

theorem freeCount_le_cutShort : s.freeCount ≤ (cutShort s q during rest).freeCount :=
  calc s.freeCount
    _ ≤ (started s q during rest).freeCount := freeCount_le_started s q during rest
    _ ≤ (resetBlock (started s q during rest)).freeCount := freeCount_le_abandons _ _
    _ ≤ (cutShort s q during rest).freeCount := freeCount_le_scramble _ _ _

end

/-- Settles O47: one case for each arrival a step can take (`step_next`). -/
theorem stepKeepsTheParameters : Obligations.StepKeepsTheParameters := by
  intro s t hstep
  rcases step_next hstep with ⟨hin, rfl⟩ | ⟨w, q, during, rest, hin, -⟩ | ⟨q, during, rest, hin, -⟩ | ⟨rest, hin, rfl⟩ |
    ⟨b, rest, hin, -, rfl⟩
  · simp [hin]
  · obtain ⟨-, -, ⟨-, rfl⟩ | ⟨-, rfl⟩⟩ := step_request_next hin hstep
    · simp [hin, freeCount_le_finished]
    · simp [hin, freeCount_le_leftStuck]
  · obtain ⟨-, rfl⟩ := step_cut_next hin hstep
    simp [hin, freeCount_le_cutShort]
  · simpa [hin] using freeCount_le_abandons _ { s with inputs := rest }
  · refine ⟨by simp, by simp, by simp [hin], ?_⟩
    exact (busAccess_freeCount { s with inputs := rest } b).ge.trans (freeCount_le_scramble _ _ _)

/-- Settles O46: an idle step by definition; what a step leaves in flight case by case (`step_next`); and a served request is
answered (`step_of_answerable`). -/
theorem stuckRequestsStayAndOthersAreAnswered : Obligations.StuckRequestsStayAndOthersAreAnswered := by
  refine ⟨fun s hin => ?idle, fun s t hstep hreset hcut => ?flying, fun s w q during rest hin hserved => ?answered⟩
  case idle => rw [step, nextArrival, hin]
  case flying =>
    rcases step_next hstep with ⟨-, rfl⟩ | ⟨w, q, during, rest, hin, -⟩ | ⟨q, during, rest, hin, -⟩ | ⟨rest, hin, -⟩ |
      ⟨b, rest, -, -, rfl⟩
    · exact ⟨[], Nat.zero_le 1, (List.append_nil _).symm⟩
    · obtain ⟨-, -, ⟨-, rfl⟩ | ⟨-, rfl⟩⟩ := step_request_next hin hstep
      · exact ⟨[], Nat.zero_le 1, by simp⟩
      · exact ⟨[q.instr], le_rfl, leftStuck_flying _ _ _ _⟩
    · exact absurd hin (hcut q during rest)
    · exact absurd hin (hreset rest)
    · exact ⟨[], Nat.zero_le 1, by simp [State.flying]⟩
  case answered =>
    obtain ⟨hwf, ho, hans⟩ := hserved
    exact ⟨_, _, step_of_answerable hin hwf ho hans, finished_flying _ _ _ _ _, finished_delivered _ _ _ _ _⟩

/-- Settles O37: a step that takes a request leaves it answered or stuck (`step_request_next`), and any other step delivers
nothing (`step_next`). -/
theorem eachRequestGetsExactlyOneResponse : Obligations.EachRequestGetsExactlyOneResponse := by
  intro s t hstep
  refine ⟨fun w q during rest hin => ?_, fun hno => ?_⟩
  · obtain ⟨-, -, ⟨hans, rfl⟩ | ⟨hstuck, rfl⟩⟩ := step_request_next hin hstep
    · exact ⟨by simp, by simp, fun _ => ⟨by simp, _, finished_delivered _ _ _ _ _, fun hok => (givenAnswer_of_ok hok).2,
        givenAnswer_of_error⟩, fun h => absurd hans h⟩
    · exact ⟨by simp, by simp, fun h => absurd h (not_answerable_of_isStuck hstuck), fun _ => ⟨by simp, by simp⟩⟩
  · rcases step_next hstep with ⟨-, rfl⟩ | ⟨w, q, during, rest, hin, -⟩ | ⟨q, during, rest, hin, -⟩ | ⟨rest, -, rfl⟩ |
      ⟨b, rest, -, -, rfl⟩
    · rfl
    · exact absurd hin (hno w q during rest)
    · obtain ⟨-, rfl⟩ := step_cut_next hin hstep
      exact cutShort_delivered _ _ _ _
    · exact resetBlock_delivered _
    · simp

/-- Settles O38: of an answered request only the delivery names the requester (`finished_eq`), of a stuck one nothing does. -/
theorem requesterDoesNotMatter : Obligations.RequesterDoesNotMatter := by
  intro s t w w' q during rest hstep
  obtain ⟨hwf, ho, ⟨hans, rfl⟩ | ⟨hstuck, rfl⟩⟩ := step_request_next rfl hstep
  · refine ⟨[givenAnswer q.instr during (started s q during rest)], le_rfl, finished_delivered _ _ _ _ _, ?_⟩
    refine (step_of_answerable (s := { s with inputs := .request w' q during :: rest }) rfl hwf ho hans).trans ?_
    rw [finished_eq, finished_eq]
    rfl
  · refine ⟨[], Nat.zero_le 1, by simp, ?_⟩
    refine (step_of_isStuck (s := { s with inputs := .request w' q during :: rest }) rfl hwf ho hstuck).trans ?_
    have hdelivered : (leftStuck s q during rest).delivered = s.delivered ++ [] := by simp
    rw [List.map_nil, ← hdelivered]
    rfl

end Sys2Proof.Machine
end

section
/-! SUPPORT. Runs of several arrivals: an error leaves the block ready (spec/60_exceptions.md section 3), disjoint requests commute
(spec/92_eei_decisions.md D9), a program is answered in order (spec/70_reset_and_hazards.md R130), and the block after reset
(section 1 there). -/

namespace Sys2Proof.Machine

/-- The accesses of other agents are all inside the address space exactly if none is the first outside. -/
theorem firstOutside_eq_none_iff {w : Nat} {d : List BusAccess} : firstOutside w d = none ↔ ∀ b ∈ d, b.addr < 2 ^ w := by
  simp [firstOutside, fitsAddr]

/-- Settles O35: where every duty is kept nothing is opened before the operation (`scramble_of_undisturbed`) or after it
(`settle_of_undisturbed`); the three outcomes of `exec` are the three of the step. -/
theorem stepPerformsTheDecodedRequest : Obligations.StepPerformsTheDecodedRequest := by
  intro s w q during rest i hin hdecode hinside hkept u
  have hwf := wf_of_decode hdecode
  have ho := firstOutside_eq_none_iff.2 hinside
  obtain ⟨rfl, -, -⟩ := decode_eq_ok hdecode
  have hstarted : started s q during rest = u := scramble_of_undisturbed hkept _
  cases hexec : exec q.instr u with
  | next t =>
    rw [step_of_exec_next hin hwf ho (hstarted ▸ hexec), settle_of_undisturbed (by simp) hkept]
  | fault r =>
    rw [step_of_exec_fault hin hwf ho (hstarted ▸ hexec), leftStuck, scramble_of_undisturbed hkept, hstarted]
  | refused r => exact step_of_exec_refused hin hwf ho (hstarted ▸ hexec)

/-- R108: all that a step leaves of a failing request is the response received. -/
theorem step_of_failing {s : State} {w : Nat} {q : Request} {rest : List Input} (hidle : s.inFlight = none)
    (hresponse : s.response = none) (hwf : q.wf s.addrW = true) (hna : ¬ Accepted q.instr)
    (hin : s.inputs = .request w q [] :: rest) :
    step s = .next { s with inputs := rest, delivered := s.delivered ++ [⟨w, answer q.instr⟩] } := by
  have hans : Answerable s q.instr := answerable_iff.2 fun ha => absurd ha hna
  rw [step_of_answerable hin hwf rfl hans, finished_alone, memAfter_of_not_accepted hna, flying_of_none s hidle, ← hidle,
    ← hresponse]

/-- Settles O34: each of the two steps is `step_of_failing`, with the one error of the request. -/
theorem errorLeavesTheBlockReady : Obligations.ErrorLeavesTheBlockReady := by
  intro s w w' q rest hidle hresponse hwf hna hin
  obtain ⟨e, he, hne⟩ := argError_of_not_accepted hna
  have hfirst := step_of_failing hidle hresponse hwf hna hin
  have hsecond := step_of_failing (w := w') (rest := rest)
    (s := { s with inputs := .request w' q [] :: rest, delivered := s.delivered ++ [⟨w, answer q.instr⟩] })
    hidle hresponse hwf hna rfl
  rw [answer_of_argError he] at hfirst hsecond
  refine ⟨e, hne, hfirst, ?_⟩
  rw [run_two hfirst hsecond]
  simp

/-- An operation leaves the same byte at an address that another one spares, before the other one and after it, if the other one
spares its source region. -/
theorem read_memAfter_memAfter {i j : Instr} {m : Memory} {a : Nat} (hm : m.wf)
    (hsrc : Accepted j → ∀ b, j.src ≤ b → b < j.src + j.len.toNat → Spares i b) (ha : Spares i a) :
    (memAfter j (memAfter i m)).read a = (memAfter j m).read a := by
  by_cases hout : Spares j a
  · rw [read_memAfter_kept hout, read_memAfter_kept hout, read_memAfter_kept ha]
  · obtain ⟨hj, h1, h2⟩ := not_spares_iff.1 hout
    obtain ⟨k, rfl⟩ := Nat.exists_eq_add_of_le h1
    have hpayload : (memAfter i m).readAll j.src j.len.toNat = m.readAll j.src j.len.toNat :=
      Memory.readAll_congr fun b hb hb' => read_memAfter_kept (hsrc hj b hb hb') m
    rw [read_memAfter_packet hj (wf_memAfter hm i) (by omega), read_memAfter_packet hj hm (by omega), hpayload]

/-- D9: operations neither of which writes the other's regions leave the same memory in either order. -/
theorem memAfter_comm {i j : Instr} {m : Memory} (hm : m.wf)
    (hij : Accepted j → ∀ b, j.src ≤ b → b < j.src + j.len.toNat → Spares i b)
    (hji : Accepted i → ∀ b, i.src ≤ b → b < i.src + i.len.toNat → Spares j b)
    (hdst : ∀ b, Spares i b ∨ Spares j b) : memAfter j (memAfter i m) = memAfter i (memAfter j m) := by
  refine Memory.eq_of_reads_alike (wf_memAfter (wf_memAfter hm i) j) (wf_memAfter (wf_memAfter hm j) i) fun a => ?_
  rcases hdst a with hi | hj
  · rw [read_memAfter_memAfter hm hij hi, read_memAfter_kept hi]
  · rw [read_memAfter_memAfter hm hji hj, read_memAfter_kept hj]

/-- Two orderly requests without accesses of other agents, performed one after the other: the memory and the responses. -/
theorem run_two_orderly {s : State} {w1 w2 : Nat} {q1 q2 : Request}
    (hin : s.inputs = [.request w1 q1 [], .request w2 q2 []]) (h1 : Orderly s q1 []) (h2 : Orderly s q2 []) :
    ∃ t, core.run 2 s = .next t ∧ t.mem = memAfter q2.instr (memAfter q1.instr s.mem) ∧
      t.delivered = s.delivered ++ [⟨w1, answer q1.instr⟩, ⟨w2, answer q2.instr⟩] := by
  obtain ⟨⟨hwf1, ho1, hans1⟩, -⟩ := h1
  obtain ⟨⟨hwf2, ho2, hans2⟩, -⟩ := h2
  have hfirst := step_of_answerable hin hwf1 ho1 hans1
  have haddr := finished_addrW s w1 q1 [] [.request w2 q2 []]
  have hdenied := finished_denied s w1 q1 [] [.request w2 q2 []]
  have hsecond := step_of_answerable (finished_inputs s w1 q1 [] [.request w2 q2 []]) (by rwa [haddr]) rfl
    ((answerable_congr haddr hdenied _).2 hans2)
  refine ⟨_, run_two hfirst hsecond, ?_⟩
  rw [finished_alone, finished_alone]
  simp

/-- Settles O39: either order leaves the memory of both operations (`run_two_orderly`), and the operations commute
(`memAfter_comm`). -/
theorem disjointRequestsCommute : Obligations.DisjointRequestsCommute := by
  intro s w1 w2 q1 q2 hinv hin h1 h2 hclear
  obtain ⟨t, hrun, hmem, hdel⟩ := run_two_orderly hin h1 h2
  obtain ⟨t', hrun', hmem', hdel'⟩ :=
    run_two_orderly (s := { s with inputs := [.request w2 q2 [], .request w1 q1 []] }) rfl h2 h1
  have hregions (a1 : Accepted q1.instr) (a2 : Accepted q2.instr) (b : Nat) :=
    hclear _ _ b (footprint_of_accepted a1) (footprint_of_accepted a2)
  have hcomm : memAfter q2.instr (memAfter q1.instr s.mem) = memAfter q1.instr (memAfter q2.instr s.mem) := by
    refine memAfter_comm hinv.within.1 (fun a2 b hb hb' a1 => ?_) (fun a1 b hb hb' a2 => ?_)
      fun b => or_iff_not_imp_left.2 fun hi a2 => ?_
    · have hsrc := (inSrc_iff (regionsOf q2.instr) b).2 ⟨hb, hb'⟩
      refine outside_of_inDst_false (Bool.eq_false_iff.2 fun hdst => ?_)
      rw [((hregions a1 a2 b).1 hdst).1] at hsrc
      cases hsrc
    · have hsrc := (inSrc_iff (regionsOf q1.instr) b).2 ⟨hb, hb'⟩
      refine outside_of_inDst_false (Bool.eq_false_iff.2 fun hdst => ?_)
      rw [(hregions a1 a2 b).2 hdst] at hsrc
      cases hsrc
    · obtain ⟨a1, hb⟩ := not_spares_iff.1 hi
      exact outside_of_inDst_false ((hregions a1 a2 b).1 ((inDst_iff (regionsOf q1.instr) b).2 hb)).2
  exact ⟨t, t', _, _, hrun, hrun', by rw [hmem, hmem', hcomm], hdel, hdel'⟩

/-- Whether a request can be presented and has a result depends on the parameters alone. -/
theorem presentable_congr {s t : State} (haddr : t.addrW = s.addrW) (q : Request) (during : List BusAccess) :
    Presentable t q during ↔ Presentable s q during := by
  simp only [Presentable, haddr]

/-- R130: a step performs a presentable request: it delivers a response exactly if the request is answerable, and where the duties
towards it are kept its status is `OK` exactly if it is accepted. -/
theorem step_of_presentable {s : State} {w : Nat} {q : Request} {during : List BusAccess} {rest : List Input}
    (hin : s.inputs = .request w q during :: rest) (hp : Presentable s q during) :
    ∃ (t : State) (o : Option Response), step s = .next t ∧ t.addrW = s.addrW ∧ t.denied = s.denied ∧ t.inputs = rest ∧
      t.delivered = s.delivered ++ (o.map (fun r => ⟨w, r⟩)).toList ∧
      (o.isSome = true ↔ Answerable s q.instr) ∧
      ∀ r, o = some r → undisturbed q.instr during = true → (r.status = .ok ↔ Accepted q.instr) := by
  obtain ⟨hwf, ho, hd⟩ := hp
  rcases answerable_or_isStuck hd with hans | hstuck
  · refine ⟨_, some (givenAnswer q.instr during (started s q during rest)), step_of_answerable hin hwf ho hans,
      finished_addrW _ _ _ _ _, finished_denied _ _ _ _ _, finished_inputs _ _ _ _ _, finished_delivered _ _ _ _ _,
      iff_of_true rfl hans, ?_⟩
    intro r hr hkept
    cases hr
    rw [givenAnswer_of_not_intruded (intruded_of_undisturbed hkept)]
    exact answer_status_ok_iff
  · exact ⟨_, none, step_of_isStuck hin hwf ho hstuck, leftStuck_addrW _ _ _ _, leftStuck_denied _ _ _ _,
      leftStuck_inputs _ _ _ _, by simp, iff_of_false (by simp) (not_answerable_of_isStuck hstuck), fun r h => by cases h⟩

/-- Settles O40: by induction on the program, each request by `step_of_presentable`; what it asks of the state depends on the
parameters, which no step changes. -/
theorem everyRequestMeetingNoStuckAccessIsAnswered : Obligations.EveryRequestMeetingNoStuckAccessIsAnswered := by
  intro s program
  induction program generalizing s with
  | nil => exact fun hin _ => ⟨s, [], rfl, hin, rfl, by simp, fun k h => absurd h (Nat.not_lt_zero k)⟩
  | cons x program ih =>
    obtain ⟨w, q, during⟩ := x
    intro hin hp
    obtain ⟨t, o, hstep, haddr, hdenied, hrest, hdel, hsome, hstatus⟩ := step_of_presentable hin (hp _ List.mem_cons_self)
    obtain ⟨u, rs, hrun, hend, hlen, hdel', hanswers⟩ := ih t hrest fun x hx =>
      (presentable_congr haddr _ _).2 (hp x (List.mem_cons_of_mem _ hx))
    refine ⟨u, o :: rs, ?run, hend, by simp [hlen], ?delivered, fun k h h' => ?answers⟩
    case run => rw [List.length_cons, run_succ hstep, hrun]
    case delivered =>
      rw [hdel', hdel, List.zip_cons_cons, List.filterMap_cons]
      cases o <;> simp
    case answers =>
      cases k with
      | zero => exact ⟨hsome, hstatus⟩
      | succ k =>
        have hk := hanswers k (Nat.lt_of_succ_lt_succ h) (Nat.lt_of_succ_lt_succ h')
        rwa [answerable_congr haddr hdenied] at hk

/-- Settles O41: nothing is listed, in flight or received, and nothing is denied. -/
theorem resetStateIsIdle : Obligations.ResetStateIsIdle := by
  have hadmits (k : AccessKind) {a : Nat} (ha : a < 2 ^ State.reset.addrW) : State.reset.admits k a = true :=
    (Bool.and_true _).trans (decide_eq_true ha)
  exact ⟨rfl, rfl, rfl, rfl, rfl, fun a ha => ⟨rfl, hadmits .read ha, hadmits .write ha⟩⟩

/-- Settles O42: the reset, with nothing in flight (`resetBlock_of_idle`). -/
theorem resetBetweenRequestsKeepsMemory : Obligations.ResetBetweenRequestsKeepsMemory := by
  intro s rest hidle hin
  rw [step_of_reset hin, resetBlock_of_idle { s with inputs := rest } hidle]

/-- Settles O45: a reset keeps the parameters, so the request is answerable after it; nobody disturbs it, so its answer is the
operation's. -/
theorem requestRightAfterResetIsAnswered : Obligations.RequestRightAfterResetIsAnswered := by
  intro s w q rest hin horderly
  obtain ⟨⟨hwf, ho, hans⟩, hkept⟩ := horderly
  have hreset := step_of_reset hin
  have haddr := resetBlock_addrW { s with inputs := .request w q [] :: rest }
  have hdenied := resetBlock_denied { s with inputs := .request w q [] :: rest }
  have hanswered := step_of_answerable (resetBlock_inputs { s with inputs := .request w q [] :: rest })
    (by rwa [haddr]) rfl ((answerable_congr haddr hdenied _).2 hans)
  refine ⟨_, answer q.instr, run_two hreset hanswered, finished_inputs _ _ _ _ _, ?_, answer_status_ok_iff⟩
  rw [finished_delivered, givenAnswer_of_not_intruded (intruded_of_undisturbed hkept), resetBlock_delivered]

/-- Settles O44: `step_of_cut`. -/
theorem cutRequestIsAbandonedWhenPresentable : Obligations.CutRequestIsAbandonedWhenPresentable :=
  fun _ _ _ _ hin hp => ⟨_, step_of_cut hin hp, cutShort_flying _ _ _ _, cutShort_response _ _ _ _,
    cutShort_delivered _ _ _ _, cutShort_inputs _ _ _ _⟩

end Sys2Proof.Machine
end

section
/-! SUPPORT. What memory holds after a step beside other agents' accesses (spec/20_memory.md R21, R29; spec/70_reset_and_hazards.md
R121, R123, R131): an access between requests, a request raced on, one without a defined result, one that gets stuck, and one that
a reset abandons. -/

namespace Sys2Proof.Machine

/-- One access breaks duties at its own byte only. -/
theorem touchedAt_singleton {is : List Instr} {b : BusAccess} {a : Nat} :
    TouchedAt is [b] a ↔ b.addr = a ∧ ∃ i ∈ is, BreaksDuty i b := by
  simp [TouchedAt]

/-- Where an access breaks no duty, nothing is opened. -/
theorem scramble_of_no_duty {is : List Instr} {b : BusAccess} (h : ∀ i ∈ is, ¬ BreaksDuty i b) (s : State) :
    scramble is [b] s = s :=
  scramble_of_undisturbed (fun i hi => undisturbed_iff.2 fun c hc => by
    rw [List.mem_singleton.1 hc, ← Bool.not_eq_true, disturbs_iff]
    exact h i hi) s

/-- R22, R23: an access of another agent changes no byte but its own. -/
theorem read_busAccess_kept {b : BusAccess} {a : Nat} (h : a ≠ b.addr) (s : State) :
    (busAccess s b).mem.read a = s.mem.read a := by
  cases b with
  | read c => rfl
  | write c v => exact Memory.read_write_ne h

/-- An access of another agent keeps memory canonical. -/
theorem wf_busAccess {s : State} (hm : s.mem.wf) (b : BusAccess) : (busAccess s b).mem.wf := wf_busAccesses hm [b]

/-- An access between two arrivals changes memory and the counter of free values alone. -/
theorem scramble_busAccess_eq (s : State) (is : List Instr) (b : BusAccess) :
    scramble is [b] (busAccess s b) = { s with
      mem := (scramble is [b] (busAccess s b)).mem, freeCount := (scramble is [b] (busAccess s b)).freeCount } := by
  conv_lhs => rw [scramble_eq]
  cases b <;> rfl

/-- Settles O11: the byte accessed is the only one that an access changes (`read_busAccess_kept`) or opens
(`touchedAt_singleton`). -/
theorem busAccessTouchesItsByteOnly : Obligations.BusAccessTouchesItsByteOnly := by
  refine fun s b rest => ⟨fun hb => ?inside, fun hb => ?outside⟩
  case inside =>
    have hfits : fitsAddr ({ s with inputs := rest } : State).addrW b.addr = true := decide_eq_true hb
    refine ⟨(scramble s.flying [b] (busAccess { s with inputs := rest } b)).mem,
      (scramble s.flying [b] (busAccess { s with inputs := rest } b)).freeCount, ?step, ?counter,
      fun hm => wf_scramble (wf_busAccess (s := { s with inputs := rest }) hm b) _ _, fun a ha => ?others,
      fun hkept => ?kept, fun hbroken hm => ?broken⟩
    case step =>
      rw [step_of_bus rfl, busInput, if_pos hfits]
      exact congrArg Host.Outcome.next (scramble_busAccess_eq { s with inputs := rest } s.flying b)
    case counter => exact (busAccess_freeCount { s with inputs := rest } b).ge.trans (freeCount_le_scramble _ _ _)
    case others =>
      have ht : ¬ TouchedAt s.flying [b] a := fun ht => ha (touchedAt_singleton.1 ht).1.symm
      rw [read_scramble_kept ht, read_busAccess_kept ha]
    case kept =>
      rw [scramble_of_no_duty hkept]
      refine ⟨busAccess_freeCount _ _, ?_, ?_⟩
      · rintro a rfl
        rfl
      · rintro a v rfl hm
        exact Memory.read_write_same hm a v
    case broken =>
      exact read_scramble_open (wf_busAccess (s := { s with inputs := rest }) hm b)
        (.inl (touchedAt_singleton.2 ⟨rfl, hbroken⟩))
  case outside =>
    have hfits : ¬ fitsAddr ({ s with inputs := rest } : State).addrW b.addr = true := by simpa [fitsAddr] using hb
    rw [step_of_bus rfl, busInput, if_neg hfits]

section

variable {s : State} {w : Nat} {q : Request} {during : List BusAccess} {rest : List Input}

/-- R29: the payload a request is performed on: at each byte where no duty was broken as other agents leave it, at every other a
free value. -/
theorem payload_started (hm : s.mem.wf) {k : Nat} (hk : k < q.len.toNat) :
    (¬ TouchedAt (s.flying ++ [q.instr]) during (q.src + k) →
      ((started s q during rest).mem.readAll q.src q.len.toNat).getD k 0 = (busAccesses s during).mem.read (q.src + k)) ∧
    (TouchedAt (s.flying ++ [q.instr]) during (q.src + k) →
      ∃ n, ((started s q during rest).mem.readAll q.src q.len.toNat).getD k 0 = Config.openByte n (q.src + k)) := by
  rw [Memory.getD_readAll _ _ hk]
  exact ⟨read_started_kept, read_started_touched hm⟩

/-- R123 (2): whether another agent touched the buffer behind the packet of an accepted request. -/
theorem intruded_request_iff (ha : Accepted q.instr) : intruded q.instr during = true ↔
    ∃ b ∈ during, q.dst + packetSize q.instr ≤ b.addr ∧ b.addr < q.dst + q.cap.toNat := by
  rw [intruded_iff, and_iff_right ha, instr_dst, instr_cap]

/-- R123 (2): where no other agent touches that buffer, nobody intrudes. -/
theorem not_intruded_of_kept_behind (ha : Accepted q.instr)
    (h : ∀ b ∈ during, ¬ (q.dst + packetSize q.instr ≤ b.addr ∧ b.addr < q.dst + q.cap.toNat)) :
    intruded q.instr during = false := by
  rw [← Bool.not_eq_true, intruded_request_iff ha]
  exact fun ⟨b, hb, hbehind⟩ => h b hb hbehind

end

/-- Settles O36: nobody intrudes behind the packet, so the request ends with the operation's answer, and the packet is that of the
payload it was performed on (`payload_started`, `read_finished_packet`). -/
theorem racedBytesTakeEveryValue : Obligations.RacedBytesTakeEveryValue := by
  intro s w q during rest hinv hin hserved ha hbehind touched
  obtain ⟨hwf, ho, hans⟩ := hserved
  have hm := hinv.within.1
  have hni := not_intruded_of_kept_behind ha hbehind
  refine ⟨_, (started s q during rest).mem.readAll q.src q.len.toNat, step_of_answerable hin hwf ho hans,
    finished_inputs _ _ _ _ _, finished_flying _ _ _ _ _, ?answer, Memory.length_readAll _ _ _, fun k hk => ?payload,
    fun k => read_finished_packet hm ha hni, fun a => read_finished_touched hm,
    fun a hout => read_finished_kept fun _ => by rwa [instr_dst]⟩
  case answer => rw [finished_delivered, givenAnswer_of_not_intruded hni, answer_of_accepted ha]
  case payload =>
    obtain ⟨hkept, hopen⟩ := payload_started (s := s) (during := during) (rest := rest) hm hk
    refine ⟨fun ht => ?_, hopen⟩
    rw [hkept ht]
    exact read_busAccesses_source (i := q.instr) (by simp) ha (by simp) (by simpa using hk) ht s

/-- Settles O50: another agent intrudes behind the packet, so the answer (`givenAnswer_of_intruded`) and the packet
(`read_finished_intruded`) are open. -/
theorem brokenOwnershipLeavesNoDefinedResult : Obligations.BrokenOwnershipLeavesNoDefinedResult := by
  intro s w q during rest hinv hin hserved ha hbehind touched
  obtain ⟨hwf, ho, hans⟩ := hserved
  have hm := hinv.within.1
  have hi : intruded q.instr during = true := (intruded_request_iff ha).2 hbehind
  exact ⟨_, (started s q during rest).freeCount, _, step_of_answerable hin hwf ho hans, finished_inputs _ _ _ _ _,
    finished_flying _ _ _ _ _, finished_delivered _ _ _ _ _, by rw [givenAnswer_of_intruded hi],
    fun hok => (givenAnswer_of_ok hok).2, givenAnswer_of_error, fun k => read_finished_intruded hm hi,
    fun a => read_finished_touched hm, fun a hout => read_finished_kept fun _ => by rwa [instr_dst]⟩

/-- Settles O51: the request gets stuck (`step_of_isStuck`), performed on the payload of `payload_started`; a byte it may not write
is kept, one it may write is unwritten or the packet's (`read_getStuck`), or open where another agent intruded
(`read_getStuck_open`). -/
theorem requestMeetingAStuckAccessStaysInFlight : Obligations.RequestMeetingAStuckAccessStaysInFlight := by
  intro s w q during rest hinv hin hwf ho hstuck touched before
  have ⟨ha, _, _⟩ := hstuck
  have hm := hinv.within
  have hf := footprint_of_accepted ha
  have hstarted : (started s q during rest).mem.wf := wf_started hm.1
  refine ⟨_, (started s q during rest).mem.readAll q.src q.len.toNat, step_of_isStuck hin hwf ho hstuck,
    leftStuck_inputs _ _ _ _, leftStuck_flying _ _ _ _, leftStuck_response _ _ _ _, leftStuck_delivered _ _ _ _,
    Memory.length_readAll _ _ _, fun k => payload_started hm.1, fun a => read_leftStuck_touched hm ho,
    fun a hout => read_leftStuck_kept hm ho fun _ => hout, fun k hk ht hbehind => ?packet,
    fun a h1 h2 hadmits hbehind => ?intruded⟩
  case packet =>
    have hni := not_intruded_of_kept_behind ha hbehind
    have hread := read_getStuck hf hni hstarted k
    simp only [regionsOf, instr_src, instr_dst, instr_len, admits_started, read_started_kept ht] at hread
    rw [leftStuck, read_scramble_kept ht]
    exact hread
  case intruded =>
    have hi : intruded q.instr during = true := (intruded_request_iff ha).2 hbehind
    have hin : (regionsOf q.instr).inDst a = true := (inDst_iff _ _).2 (by simpa [regionsOf] using ⟨h1, h2⟩)
    exact read_scramble_open (getStuck_started hm ho).1.1 (.inr (read_getStuck_open hf hi hstarted hin (by simpa using hadmits)))

/-- Settles O52: a presentable request is answered or gets stuck (`answerable_or_isStuck`), and either leaves a touched byte open
and keeps any other outside its destination region. -/
theorem touchedBytesAreOpenAndOthersStay : Obligations.TouchedBytesAreOpenAndOthersStay := by
  intro s w q during rest hinv hin hp touched
  obtain ⟨hwf, ho, hd⟩ := hp
  have hm := hinv.within
  rcases answerable_or_isStuck hd with hans | hstuck
  · exact ⟨_, step_of_answerable hin hwf ho hans, finished_inputs _ _ _ _ _, fun a => read_finished_touched hm.1,
      fun a hout => read_finished_kept (by rwa [← instr_dst] at hout)⟩
  · exact ⟨_, step_of_isStuck hin hwf ho hstuck, leftStuck_inputs _ _ _ _, fun a => read_leftStuck_touched hm ho,
      fun a hout => read_leftStuck_kept hm ho fun ha => (hout ha).imp_right .inl⟩

/-! ## A reset -/

/-- An address that an operation spares is not in its destination region. -/
theorem inDst_footprint_false {i : Instr} {a : Nat} (h : Spares i a) (f : Footprint) (hf : footprint i = some f) :
    f.inDst a = false := by
  obtain ⟨ha, rfl⟩ := footprint_eq_some hf
  rw [← Bool.not_eq_true, inDst_iff]
  have hout := h ha
  simp only [regionsOf]
  omega

/-- A byte outside the destination regions of abandoned operations reads as before, in terms of their operands. -/
theorem read_abandons_outside {is : List Instr} {a : Nat} (h : ∀ i ∈ is, Spares i a) (s : State) :
    (is.foldl abandon s).mem.read a = s.mem.read a :=
  read_abandons_kept (fun i hi => inDst_footprint_false (h i hi)) s

/-- A byte of the destination region of an abandoned operation holds a free value, in terms of its operands. -/
theorem read_abandons_inside {is : List Instr} {s : State} {a : Nat} {i : Instr} (hm : s.mem.wf) (hi : i ∈ is)
    (ha : Accepted i) (h1 : i.dst ≤ a) (h2 : a < i.dst + packetSize i) :
    ∃ n, (is.foldl abandon s).mem.read a = Config.openByte n a :=
  read_abandons_open hm (.inl ⟨i, hi, _, footprint_of_accepted ha, (inDst_iff _ _).2 ⟨h1, h2⟩⟩)

/-- A request that fails an argument check has no destination region to abandon. -/
theorem abandon_of_not_accepted {i : Instr} (ha : ¬ Accepted i) (s : State) : abandon s i = s := by
  rw [abandon, footprint_of_not_accepted ha]

/-- Abandoning requests that fail an argument check changes nothing. -/
theorem abandons_of_not_accepted {is : List Instr} (h : ∀ i ∈ is, ¬ Accepted i) (s : State) : is.foldl abandon s = s := by
  induction is with
  | nil => rfl
  | cons i is ih =>
    rw [List.foldl_cons, abandon_of_not_accepted (h i List.mem_cons_self), ih fun j hj => h j (List.mem_cons_of_mem _ hj)]

/-- Other agents owe no duty to a request that fails an argument check (log 8). -/
theorem undisturbed_of_not_accepted {i : Instr} (ha : ¬ Accepted i) (d : List BusAccess) : undisturbed i d = true :=
  undisturbed_iff.2 fun b _ => by
    rw [← Bool.not_eq_true, disturbs_iff]
    exact fun h => ha h.1

section

variable {s : State} {q : Request} {during : List BusAccess} {rest : List Input}

/-- Memory after a reset cut a request, before the bytes of broken duties are open again: every operation in flight is
abandoned. -/
theorem resetBlock_started_mem : (resetBlock (started s q during rest)).mem
    = ((s.flying ++ [q.instr]).foldl abandon (started s q during rest)).mem := by
  rw [resetBlock_mem, started_flying]

/-- R121: a byte outside the destination regions of what a reset abandons, at which no duty was broken, is as other agents leave
it. -/
theorem read_cutShort_kept {a : Nat}
    (h : ∀ i ∈ s.flying ++ [q.instr], Spares i a) (ht : ¬ TouchedAt (s.flying ++ [q.instr]) during a) :
    (cutShort s q during rest).mem.read a = (busAccesses s during).mem.read a := by
  rw [cutShort, read_scramble_kept ht, resetBlock_started_mem, read_abandons_outside h, read_started_kept ht]

/-- R121: a byte of those destination regions, or at which a duty was broken, holds a free value. -/
theorem read_cutShort_open {a : Nat} (hm : s.mem.wf)
    (h : TouchedAt (s.flying ++ [q.instr]) during a ∨
      ∃ i ∈ s.flying ++ [q.instr], Accepted i ∧ i.dst ≤ a ∧ a < i.dst + packetSize i) :
    ∃ n, (cutShort s q during rest).mem.read a = Config.openByte n a := by
  have hreset : (resetBlock (started s q during rest)).mem.wf := by
    rw [resetBlock_started_mem]
    exact wf_abandons (wf_started hm)
  refine read_scramble_open hreset (h.imp_right ?_)
  rintro ⟨i, hi, ha, h1, h2⟩
  rw [resetBlock_started_mem]
  exact read_abandons_inside (wf_started hm) hi ha h1 h2

/-- Requests that all fail an argument check leave memory as other agents leave it. -/
theorem cutShort_mem_of_not_accepted (h : ∀ i ∈ s.flying ++ [q.instr], ¬ Accepted i) :
    (cutShort s q during rest).mem = (busAccesses s during).mem := by
  have hkept : ∀ i ∈ s.flying ++ [q.instr], undisturbed i during = true := fun i hi => undisturbed_of_not_accepted (h i hi) _
  rw [cutShort, scramble_of_undisturbed hkept, resetBlock_started_mem, abandons_of_not_accepted h, started,
    scramble_of_undisturbed hkept, busAccesses_setInputs]
  rfl

end

/-- Settles O43: a cut request leaves `cutShort` (`step_cut_next`), a reset between arrivals each operation in flight abandoned; a
source byte of an abandoned request lies outside its own destination region, since its regions have a result. -/
theorem resetAbandonsTheRequestInFlight : Obligations.ResetAbandonsTheRequestInFlight := by
  refine ⟨fun s t q during rest hin hstep => ?cut, fun s rest hin => ?reset⟩
  case cut =>
    obtain ⟨⟨-, -, hd⟩, rfl⟩ := step_cut_next hin hstep
    refine ⟨cutShort_flying _ _ _ _, cutShort_response _ _ _ _, cutShort_delivered _ _ _ _, cutShort_inputs _ _ _ _,
      cutShort_mem_of_not_accepted, fun a => read_cutShort_kept, fun ha a h1 h2 ht hothers => ?source,
      fun hm a => read_cutShort_open hm⟩
    case source =>
      rw [← instr_src, ← instr_len] at h2
      rw [← instr_src] at h1
      have hown := source_outside_dst (hd _ (footprint_of_accepted ha)) h1 h2
      rw [read_cutShort_kept (List.forall_mem_append.2 ⟨hothers, List.forall_mem_singleton.2 fun _ => hown⟩) ht]
      exact read_busAccesses_source (i := q.instr) (by simp) ha h1 h2 ht s
  case reset =>
    refine ⟨_, step_of_reset hin, (flying_eq_nil_iff _).2 ⟨rfl, rfl⟩, rfl, resetBlock_delivered _, resetBlock_inputs _,
      fun hna => ?failing, fun a hout => read_abandons_outside hout _, fun i hi ha hd a h1 h2 hothers => ?source,
      fun hm i hi ha a h1 h2 => read_abandons_inside hm hi ha h1 h2⟩
    case failing =>
      have hsame := congrArg State.mem (abandons_of_not_accepted hna { s with inputs := rest })
      exact hsame
    case source =>
      refine read_abandons_outside (fun j hj haj => ?_) _
      by_cases hji : j = i
      · subst hji
        exact source_outside_dst hd h1 h2
      · exact hothers j hj hji haj

end Sys2Proof.Machine
end
